-- ==== Sys2Proof/Word.lean ====
section
/-! DEFINITION. Bytes, signs and sign-magnitude words (spec 10_state.md, R20 to R23; 00_scope.md, R11, R12),
and the forms a word takes while it is read from text (R21, R125), which never reach the machine. -/

namespace Sys2Proof

/-- A live sign (R21): two-valued, because `Invalid` must not occur in a register or in memory. -/
inductive Sign where
  | plus
  | minus
deriving DecidableEq, Repr

/-- `neg` of R11. -/
def Sign.neg : Sign → Sign
  | .plus => .minus
  | .minus => .plus

/-- `sgn` of R11. -/
def Sign.sgn : Sign → Int
  | .plus => 1
  | .minus => -1

/-- A live byte (R20): six bits, an integer in [0, 63]. -/
abbrev Byte := Fin 64

/-- Word<N> (R22): a sign and exactly `n` bytes. Byte 1 is the leftmost, most significant one (R12). -/
structure Word (n : Nat) where
  sign : Sign
  bytes : Vector Byte n
deriving DecidableEq, Repr

/-- Byte `i` of a word, numbered from 1 (R12); 0 where there is no byte `i`. The read that fails there is
`Machine.readByte`. -/
def Word.byteAt {n : Nat} (w : Word n) (i : Nat) : Byte :=
  if h : 1 ≤ i ∧ i ≤ n then w.bytes[i - 1]'(by omega) else 0

/-- The word whose sign is `s` and whose byte `i` is `f i`, for `i` in 1..n. -/
def Word.build (n : Nat) (s : Sign) (f : Nat → Byte) : Word n :=
  ⟨s, Vector.ofFn fun k => f (k.val + 1)⟩

/-- A new word: "created zero-initialized (Plus sign, all-zero bytes)" (R22). -/
def Word.zero (n : Nat) : Word n := Word.build n .plus fun _ => 0

/-- `w` with its sign replaced (R12). -/
def Word.withSign {n : Nat} (w : Word n) (s : Sign) : Word n := ⟨s, w.bytes⟩

/-- `[s, b1, b2, b3, b4, b5]`, the notation of R12. -/
def word5 (s : Sign) (b1 b2 b3 b4 b5 : Byte) : Word 5 := ⟨s, #v[b1, b2, b3, b4, b5]⟩

/-- `[s, b1, b2]`, the notation of R12. -/
def word2 (s : Sign) (b1 b2 : Byte) : Word 2 := ⟨s, #v[b1, b2]⟩

/-- A sign as text gives it (R21): `invalid` stands for any character that is no sign, or for none at all. -/
inductive TextSign where
  | plus
  | minus
  | invalid
deriving DecidableEq, Repr

/-- A byte as text gives it (R20): `sentinel` is the distinguished out-of-range value of a byte not read. Its number
is not given (U12), so it is a constructor of its own. -/
inductive TextByte where
  | byte (b : Byte)
  | sentinel
deriving DecidableEq, Repr

/-- A word as the text reader hands it to the loader (R125, R315), valid or not. -/
structure TextWord (n : Nat) where
  sign : TextSign
  bytes : Vector TextByte n
deriving DecidableEq, Repr

end Sys2Proof
end

