-- ==== Sys2Proof/Config.lean ====
section
/-! DEFINITION. The implementation's fixed values (00_scope.md, R9) and the parameters the spec names (R10). -/

namespace Sys2Proof

/-- `BYTE_SIZE` (R9): values per byte. -/
def Config.byteSize : Nat := 64

/-- `WORD_BYTES` (R9): bytes of a full word. -/
def Config.wordBytes : Nat := 5

/-- `HALF_BYTES` (R9): bytes of a half-word. -/
def Config.halfBytes : Nat := 2

/-- `MEM_SIZE` (R9): memory words, at addresses 0..3999. -/
def Config.memSize : Nat := 4000

/-- `INDEX_COUNT` (R9): index registers, numbered 1..6. -/
def Config.indexCount : Nat := 6

/-- `MAX_MAG5` (R9): the largest magnitude of a Word<5>. -/
def Config.maxMag5 : Nat := 64 ^ 5 - 1

/-- `MAX_MAG2` (R9): the largest magnitude of a Word<2>. -/
def Config.maxMag2 : Nat := 64 ^ 2 - 1

/-- The readings of the sign of a zero ADD or SUB result (R252, D4). -/
inductive ZeroResultSign where
  | plus
  | keepA
deriving DecidableEq, Repr

/-- The readings of a half-word Store through more than two bytes (R232, D5). -/
inductive HalfStoreWide where
  | fault
  | widen
deriving DecidableEq, Repr

/-- The named parameters of R10 that a step depends on. The shared operations take them as an argument, so that both
readings of each stand in the text; the machine passes `Config.hardware`. -/
structure Params where
  wrapModulus : Nat
  zeroResultSign : ZeroResultSign
  halfStoreWide : HalfStoreWide
deriving DecidableEq, Repr

/-- The values the spec decides for this hardware (R10): `WRAP_MODULUS` = 64^5 (D3), `ZERO_RESULT_SIGN` = Plus (D4),
`HALF_STORE_WIDE` = Fault (D5). They are the spec's decisions where its source is open: log entry 2. -/
def Config.hardware : Params where
  wrapModulus := 64 ^ 5
  zeroResultSign := .plus
  halfStoreWide := .fault

/-- `BYTE_CHAR_CODE` (R10, R316, D13): the OPEN mapping from a byte to its character, injective, without `+` and `-`
in its image. It is an argument of the text reader, writer and loader, and no step depends on it. -/
structure ByteCharCode where
  char : Byte → Char
  injective : ∀ a b, char a = char b → a = b
  noPlus : ∀ b, char b ≠ '+'
  noMinus : ∀ b, char b ≠ '-'

end Sys2Proof
end

