-- ==== Sys2Proof/Syntax.lean ====
section
/-! DEFINITION. The instructions as syntax: one constructor per row of spec/opcode_table.json (30_encoding.md, R91),
each with the three operand fields of the one instruction format (R80). -/

namespace Sys2Proof

/-- The index registers rI1..rI6 (R24). -/
inductive IndexReg where
  | i1
  | i2
  | i3
  | i4
  | i5
  | i6
deriving DecidableEq, Repr

/-- A field specification (L:R) (R13): word positions `left`..`right`, where position 0 is the sign. -/
structure FieldSpec where
  left : Nat
  right : Nat
deriving DecidableEq, Repr

/-- The operand fields of an instruction (R80): the signed address A, the index specification I (`none` is I = 0,
"no indexing", R82) and the field specification F. -/
structure Operands where
  address : Int
  index : Option IndexReg
  field : FieldSpec
deriving DecidableEq, Repr

/-- The 28 instructions (R91), in the order of their operation codes. -/
inductive Instr where
  | add (o : Operands)
  | sub (o : Operands)
  | lda (o : Operands)
  | ld1 (o : Operands)
  | ld2 (o : Operands)
  | ld3 (o : Operands)
  | ld4 (o : Operands)
  | ld5 (o : Operands)
  | ld6 (o : Operands)
  | ldx (o : Operands)
  | ldan (o : Operands)
  | ld1n (o : Operands)
  | ld2n (o : Operands)
  | ld3n (o : Operands)
  | ld4n (o : Operands)
  | ld5n (o : Operands)
  | ld6n (o : Operands)
  | ldxn (o : Operands)
  | sta (o : Operands)
  | st1 (o : Operands)
  | st2 (o : Operands)
  | st3 (o : Operands)
  | st4 (o : Operands)
  | st5 (o : Operands)
  | st6 (o : Operands)
  | stx (o : Operands)
  | stj (o : Operands)
  | stz (o : Operands)
deriving DecidableEq, Repr

/-- The operand fields of an instruction. -/
def Instr.operands : Instr → Operands
  | .add o => o
  | .sub o => o
  | .lda o => o
  | .ld1 o => o
  | .ld2 o => o
  | .ld3 o => o
  | .ld4 o => o
  | .ld5 o => o
  | .ld6 o => o
  | .ldx o => o
  | .ldan o => o
  | .ld1n o => o
  | .ld2n o => o
  | .ld3n o => o
  | .ld4n o => o
  | .ld5n o => o
  | .ld6n o => o
  | .ldxn o => o
  | .sta o => o
  | .st1 o => o
  | .st2 o => o
  | .st3 o => o
  | .st4 o => o
  | .st5 o => o
  | .st6 o => o
  | .stx o => o
  | .stj o => o
  | .stz o => o

end Sys2Proof
end

