-- ==== Sys2Proof/WellFormed.lean ====
section
/-! DEFINITION. Which fields and which instructions are well formed: the values an encoding can hold
(30_encoding.md, R81, R82, R87, R93). The index specification needs no check: its type admits 0..6 only. -/

namespace Sys2Proof

/-- The invariant of a field for a Word<N> (R87): 0 ≤ left ≤ right ≤ N. -/
abbrev FieldSpec.ValidFor (f : FieldSpec) (n : Nat) : Prop := f.left ≤ f.right ∧ f.right ≤ n

/-- The operands an instruction word can hold: an address in -4095..4095 (R81) and a field valid for the full word
(R83, R87). -/
abbrev Operands.WellFormed (o : Operands) : Prop :=
  -4095 ≤ o.address ∧ o.address ≤ 4095 ∧ o.field.ValidFor 5

/-- A well-formed instruction (R93). -/
abbrev Instr.WellFormed (i : Instr) : Prop := i.operands.WellFormed

end Sys2Proof
end

