-- ==== Sys2Proof/Machine/FieldCodec.lean ====
section
/-! DEFINITION. The field-specification codec and the derived quantities of a field (30_encoding.md, R85 to R88). -/

namespace Sys2Proof

/-- R85: `left = encoded / 8`, `right = encoded mod 8`. -/
def decodeField (encoded : Nat) : FieldSpec := ⟨encoded / 8, encoded % 8⟩

/-- R86: `encode(spec) = right + left * 8`. -/
def encodeField (f : FieldSpec) : Nat := f.right + f.left * 8

/-- `size(f)` (R88). -/
def FieldSpec.size (f : FieldSpec) : Nat := f.right + 1 - f.left

/-- `contains_sign(f)` (R88). -/
abbrev FieldSpec.containsSign (f : FieldSpec) : Prop := f.left = 0

/-- `bytes(f)` (R88): how many data bytes the field names; 0 for (0:0), which names the sign alone. -/
def FieldSpec.byteCount (f : FieldSpec) : Nat :=
  if f.containsSign then f.size - 1 else f.size

/-- The first byte position the field names, `max(left, 1)` (R88, R119). -/
def FieldSpec.firstByte (f : FieldSpec) : Nat := max f.left 1

end Sys2Proof
end

