-- ==== Sys2Proof/Machine/State.lean ====
section
/-! DEFINITION. The machine's state (10_state.md), its reset value (R36), the fault kinds of 60_exceptions.md (R280) and
the reasons for which a step has no next state. -/

namespace Sys2Proof.Machine

/-- The overflow bit (R30). -/
inductive OverflowBit where
  | off
  | on
deriving DecidableEq, Repr

/-- The comparison indicator (R31). -/
inductive Comparison where
  | equal
  | greater
  | less
deriving DecidableEq, Repr

/-- What an InvalidArgument fault records (R280: "the field byte F, the count k, or the bad argument"). -/
inductive BadArgument where
  /-- A field byte that decodes to no valid field (R83, R87). -/
  | field (f : Nat)
  /-- A byte count outside 0..N (R121, R122, R232). -/
  | count (k : Int)
  /-- A negative shift amount (R113, R114). -/
  | shift (k : Int)
  /-- A negative rotation amount (R115, R116). -/
  | rotate (k : Int)
  /-- An out-of-range span of `toInt` (R117). -/
  | span (first last : Int)
  /-- A malformed copy range (R118). -/
  | range (first last : Int)
deriving DecidableEq, Repr

/-- The fault kinds of R280, each with the operand it records. -/
inductive FaultKind where
  /-- An address, register number or byte number out of its declared bounds. -/
  | indexError (i : Int)
  /-- Byte 3 of an instruction word is not in 0..6 (R82). -/
  | invalidIndexSpec (i : Nat)
  /-- A negative amount, a malformed field, range or span, or a bad count. -/
  | invalidArgument (a : BadArgument)
  /-- An operation code outside all dispatch ranges (R92). -/
  | unknownOpCode (c : Nat)
  /-- A value that is no sign, given to a sign setter or read as text: never raised by a step. The character is
  recorded where there is one. The loader does not report it: log entry 14. -/
  | invalidSign (c : Option Char)
  /-- A word that failed its validity check, whichever part is bad (log entry 14): raised by the loader alone, never by
  a step. -/
  | invalidWord (w : TextWord 5)
deriving DecidableEq, Repr

/-- The run status (R39): `faulted k p` once the instruction at `p` has raised the fault `k`. -/
inductive RunStatus where
  | running
  | faulted (kind : FaultKind) (at_ : Nat)
deriving DecidableEq, Repr

/-- Memory (R34, R60): word addressed, so a cell is an address and the Word<5> it holds (log entry 3). A word that is
not listed is the word of construction, `[+, 0, 0, 0, 0, 0]` (R36). -/
abbrev Memory := List (Nat × Word 5)

/-- The canonical form of memory: addresses strictly rising and below 4000, and no cell that holds what an unlisted
address reads as. -/
abbrev Memory.wf (m : Memory) : Prop :=
  m.Pairwise (fun c d => c.1 < d.1) ∧ ∀ c ∈ m, c.1 < Config.memSize ∧ c.2 ≠ Word.zero 5

/-- Everything the machine owns (R33), and the run status (R39). -/
structure State where
  /-- The accumulator rA (R25). -/
  rA : Word 5
  /-- The extension register rX (R26). -/
  rX : Word 5
  /-- The jump register rJ (R27). -/
  rJ : Word 2
  /-- The index registers rI1..rI6 (R28). -/
  rI1 : Word 2
  rI2 : Word 2
  rI3 : Word 2
  rI4 : Word 2
  rI5 : Word 2
  rI6 : Word 2
  /-- The program counter: a natural number without bound or wrap (R29). -/
  pc : Nat
  /-- The overflow bit (R30). -/
  ov : OverflowBit
  /-- The comparison indicator (R31). -/
  ci : Comparison
  /-- The memory, addresses 0..3999 (R34). -/
  mem : Memory
  /-- The run status (R39). -/
  status : RunStatus
deriving DecidableEq, Repr

/-- Why the machine has no step. -/
inductive Fault where
  /-- Raised by `step` on a machine whose run status is `Faulted(kind, operand, at)`, and by nothing else: "A faulted
  machine takes no further step" (R39, R284). It repeats the recorded fault. Safe: the machine stops, and the fault
  itself stands in the state (log entry 1). -/
  | stopped (kind : FaultKind) (at_ : Nat)
deriving DecidableEq, Repr

/-- Why an instruction has no meaning. -/
inductive Refusal where
  /-- Raised by `exec` for an instruction that has no meaning yet; no arm raises it now. Safe: the machine stops. -/
  | notModelled (mnemonic : String)
deriving DecidableEq, Repr

/-- What a step of this machine answers. -/
abbrev Result := Host.Outcome State Fault Refusal

/-- The machine after construction (R36, R310): zeroed, Plus, Off, Equal, and Running. -/
def State.reset : State where
  rA := Word.zero 5
  rX := Word.zero 5
  rJ := Word.zero 2
  rI1 := Word.zero 2
  rI2 := Word.zero 2
  rI3 := Word.zero 2
  rI4 := Word.zero 2
  rI5 := Word.zero 2
  rI6 := Word.zero 2
  pc := 0
  ov := .off
  ci := .equal
  mem := []
  status := .running

end Sys2Proof.Machine
end

