-- ==== Sys2Proof/Machine/Datapath.lean ====
section
/-! DEFINITION. The Word<N> primitives (40_word_datapath.md, R110 to R124), as functions that return a new word or a
fault. Amounts, positions and counts are integers, as in the spec, so that the negative ones can fail. -/

namespace Sys2Proof.Machine

/-! Byte and sign access. -/

/-- Byte read `w.byte(i)` (R110). -/
def readByte {n : Nat} (w : Word n) (i : Int) : Except FaultKind Byte :=
  if 1 ≤ i ∧ i ≤ n then .ok (w.byteAt i.toNat) else .error (.indexError i)

/-- `w` with byte `i` replaced (R12). -/
def putByte {n : Nat} (w : Word n) (i : Nat) (v : Byte) : Word n :=
  .build n w.sign fun j => if j = i then v else w.byteAt j

/-- Byte write `w{byte i := v}` (R111). -/
def writeByte {n : Nat} (w : Word n) (i : Int) (v : Byte) : Except FaultKind (Word n) :=
  if 1 ≤ i ∧ i ≤ n then .ok (putByte w i.toNat v) else .error (.indexError i)

/-- Sign write `w{sign := s}` (R112): it fails for a value that is neither Plus nor Minus. -/
def writeSign {n : Nat} (w : Word n) : TextSign → Except FaultKind (Word n)
  | .plus => .ok (w.withSign .plus)
  | .minus => .ok (w.withSign .minus)
  | .invalid => .error (.invalidSign none)

/-- Negation `w{sign := neg(w.sign)}` (R112). -/
def negateWord {n : Nat} (w : Word n) : Word n := w.withSign w.sign.neg

/-! Shifts and rotations. -/

/-- `right_shift(w, k)` (R113): toward byte N, zero fill, the sign kept. -/
def rightShift {n : Nat} (w : Word n) (k : Int) : Except FaultKind (Word n) :=
  if k < 0 then .error (.invalidArgument (.shift k))
  else .ok (.build n w.sign fun i => if k.toNat + 1 ≤ i then w.byteAt (i - k.toNat) else 0)

/-- `left_shift(w, k)` (R114): toward byte 1, zero fill, the sign kept. -/
def leftShift {n : Nat} (w : Word n) (k : Int) : Except FaultKind (Word n) :=
  if k < 0 then .error (.invalidArgument (.shift k))
  else .ok (.build n w.sign fun i => if i + k.toNat ≤ n then w.byteAt (i + k.toNat) else 0)

/-- `rotate_right(w, k)` (R115). The source byte `((i - 1 - m) mod N) + 1` is written with `N - m` for `-m`, which is
the same modulo N, so that no subtraction goes below zero. -/
def rotateRight {n : Nat} (w : Word n) (k : Int) : Except FaultKind (Word n) :=
  if k < 0 then .error (.invalidArgument (.rotate k))
  else .ok (.build n w.sign fun i => w.byteAt ((i - 1 + (n - k.toNat % n)) % n + 1))

/-- `rotate_left(w, k)` (R116). -/
def rotateLeft {n : Nat} (w : Word n) (k : Int) : Except FaultKind (Word n) :=
  if k < 0 then .error (.invalidArgument (.rotate k))
  else .ok (.build n w.sign fun i => w.byteAt ((i - 1 + k.toNat % n) % n + 1))

/-! Integer conversion. -/

/-- The big-endian base-64 number of the `k` bytes that start at byte `lo` (R63, R117). -/
def spanMag {n : Nat} (w : Word n) (lo : Nat) : Nat → Nat
  | 0 => 0
  | k + 1 => spanMag w lo k * 64 + (w.byteAt (lo + k)).val

/-- The value of positions `first..last` (R117), for a span in range: negated if the sign is among them and is Minus. -/
def spanValue {n : Nat} (w : Word n) (first last : Nat) : Int :=
  let m := spanMag w (max first 1) (last + 1 - max first 1)
  if first = 0 ∧ w.sign = .minus then -(m : Int) else m

/-- `toInt(w, first, last)` (R117): it fails on a span that is not 0 ≤ first ≤ last ≤ N (D12). -/
def toInt {n : Nat} (w : Word n) (first last : Int) : Except FaultKind Int :=
  if 0 ≤ first ∧ first ≤ last ∧ last ≤ n then .ok (spanValue w first.toNat last.toNat)
  else .error (.invalidArgument (.span first last))

/-- `mag(w)` (R15). -/
def magnitude {n : Nat} (w : Word n) : Nat := spanMag w 1 n

/-- `val(w)` (R15). -/
def value {n : Nat} (w : Word n) : Int := w.sign.sgn * (magnitude w : Int)

/-- The word with sign `s` whose bytes are the N low base-64 digits of `m`, big-endian (R252). -/
def ofMagnitude (n : Nat) (s : Sign) (m : Nat) : Word n :=
  .build n s fun i => Fin.ofNat 64 (m / 64 ^ (n - i))

/-! Range copy and field alignment. -/

/-- `copy_range(self, source, first, last)` (R118). -/
def copyRange {n : Nat} (self source : Word n) (first last : Int) : Except FaultKind (Word n) :=
  if first > last ∨ first < 0 ∨ last > n then .error (.invalidArgument (.range first last))
  else .ok (.build n (if first = 0 then source.sign else self.sign) fun i =>
    if max first 1 ≤ (i : Int) ∧ (i : Int) ≤ last then source.byteAt i else self.byteAt i)

/-- The sign an extracted field carries (R119): the word's if the field contains it, else Plus. -/
def fieldSign {n : Nat} (w : Word n) (f : FieldSpec) : Sign :=
  if f.containsSign then w.sign else .plus

/-- `field_aligned_right(w, f)` (R119): the bytes `f` names, at the right edge of a new zero word. A field that is not
valid for N cannot be constructed (R87), so it fails here. -/
def fieldAlignedRight {n : Nat} (w : Word n) (f : FieldSpec) : Except FaultKind (Word n) :=
  if f.ValidFor n then
    .ok (.build n (fieldSign w f) fun i =>
      if n - f.byteCount < i then w.byteAt (f.firstByte + (i - (n - f.byteCount + 1))) else 0)
  else .error (.invalidArgument (.field (encodeField f)))

/-- `field_aligned_left(w, f)` (R120): the same bytes at the left edge. -/
def fieldAlignedLeft {n : Nat} (w : Word n) (f : FieldSpec) : Except FaultKind (Word n) :=
  if f.ValidFor n then
    .ok (.build n (fieldSign w f) fun i =>
      if i ≤ f.byteCount then w.byteAt (f.firstByte + (i - 1)) else 0)
  else .error (.invalidArgument (.field (encodeField f)))

/-! End extraction (R121, R122, D12). -/

/-- The word with sign `s` that keeps the last `k` bytes of `w` in their places, the others 0. -/
def keepRight {n : Nat} (w : Word n) (s : Sign) (k : Nat) : Word n :=
  .build n s fun i => if n - k + 1 ≤ i then w.byteAt i else 0

/-- The word with sign `s` that keeps the first `k` bytes of `w` in their places, the others 0. -/
def keepLeft {n : Nat} (w : Word n) (s : Sign) (k : Nat) : Word n :=
  .build n s fun i => if i ≤ k then w.byteAt i else 0

/-- `rightmost_bytes(w, k)` (R121). -/
def rightmostBytes {n : Nat} (w : Word n) (k : Int) : Except FaultKind (Word n) :=
  if k < 0 ∨ k > n then .error (.invalidArgument (.count k)) else .ok (keepRight w .plus k.toNat)

/-- `rightmost_bytes_with_sign(w, k)` (R121). -/
def rightmostBytesWithSign {n : Nat} (w : Word n) (k : Int) : Except FaultKind (Word n) :=
  if k < 0 ∨ k > n then .error (.invalidArgument (.count k)) else .ok (keepRight w w.sign k.toNat)

/-- `leftmost_bytes(w, k)` (R122). -/
def leftmostBytes {n : Nat} (w : Word n) (k : Int) : Except FaultKind (Word n) :=
  if k < 0 ∨ k > n then .error (.invalidArgument (.count k)) else .ok (keepLeft w .plus k.toNat)

/-- `leftmost_bytes_with_sign(w, k)` (R122). -/
def leftmostBytesWithSign {n : Nat} (w : Word n) (k : Int) : Except FaultKind (Word n) :=
  if k < 0 ∨ k > n then .error (.invalidArgument (.count k)) else .ok (keepLeft w w.sign k.toNat)

/-! Width conversion. -/

/-- `narrow_{N1→N2}(w)` for N2 ≤ N1 (R123): the sign and the rightmost N2 bytes. -/
def narrow {n1 : Nat} (n2 : Nat) (w : Word n1) : Word n2 :=
  .build n2 w.sign fun j => w.byteAt (n1 - n2 + j)

/-- `widen_{N1→N2}(w)` for N2 ≥ N1 (R124): the sign kept, zero bytes at the left. -/
def widen {n1 : Nat} (n2 : Nat) (w : Word n1) : Word n2 :=
  .build n2 w.sign fun j => if j ≤ n2 - n1 then 0 else w.byteAt (j - (n2 - n1))

end Sys2Proof.Machine
end

