-- ==== Sys2Proof/Decode.lean ====
section
/-! DEFINITION. Decode, dispatch and the encoder (30_encoding.md, R80 to R95). -/

namespace Sys2Proof

open Sys2Proof.Machine (FaultKind spanValue ofMagnitude)

/-! Decode (R90). -/

/-- The spec's Instruction (R90): the decoded fields of a word, its operation code not yet checked. -/
structure Decoded where
  operands : Operands
  opCode : Byte
deriving DecidableEq, Repr

/-- The index specification of byte 3 (R82): 0 is no indexing, 1..6 name rI1..rI6, any other value fails. -/
def decodeIndex : Nat → Except FaultKind (Option IndexReg)
  | 0 => .ok none
  | 1 => .ok (some .i1)
  | 2 => .ok (some .i2)
  | 3 => .ok (some .i3)
  | 4 => .ok (some .i4)
  | 5 => .ok (some .i5)
  | 6 => .ok (some .i6)
  | i => .error (.invalidIndexSpec i)

/-- The field specification of byte 4, checked against the full word (R83, R87, D18). -/
def decodeFieldSpec (f : Nat) : Except FaultKind FieldSpec :=
  if (decodeField f).ValidFor 5 then .ok (decodeField f) else .error (.invalidArgument (.field f))

/-- `decode(w)` (R90), in its order: the address, which cannot fault, then I, then F. -/
def decodeFields (w : Word 5) : Except FaultKind Decoded := do
  let address := spanValue w 0 2
  let index ← decodeIndex (w.byteAt 3).val
  let field ← decodeFieldSpec (w.byteAt 4).val
  return ⟨⟨address, index, field⟩, w.byteAt 5⟩

/-! Dispatch (R91, R92, R154). -/

/-- The Arithmetic family, 1 and 2 (R91). -/
def arithmeticCodes : List (Nat × (Operands → Instr)) :=
  [(1, .add), (2, .sub)]

/-- The Load family, 8..15 (R91). -/
def loadCodes : List (Nat × (Operands → Instr)) :=
  [(8, .lda), (9, .ld1), (10, .ld2), (11, .ld3), (12, .ld4), (13, .ld5), (14, .ld6), (15, .ldx)]

/-- The Load-Negative family, 16..23 (R91). -/
def loadNegativeCodes : List (Nat × (Operands → Instr)) :=
  [(16, .ldan), (17, .ld1n), (18, .ld2n), (19, .ld3n), (20, .ld4n), (21, .ld5n), (22, .ld6n), (23, .ldxn)]

/-- The Store family, 24..33 (R91). -/
def storeCodes : List (Nat × (Operands → Instr)) :=
  [(24, .sta), (25, .st1), (26, .st2), (27, .st3), (28, .st4), (29, .st5), (30, .st6), (31, .stx),
   (32, .stj), (33, .stz)]

/-- The opcode map (R91): the historical MIX numbers, which the spec takes from general knowledge (D1, log entry 4).
It is one table, so that it can be replaced. -/
def opcodeTable : List (Nat × (Operands → Instr)) :=
  arithmeticCodes ++ loadCodes ++ loadNegativeCodes ++ storeCodes

/-- Dispatch (R154): the instruction an operation code selects; a code outside the table fails (R92). -/
def dispatch (d : Decoded) : Except FaultKind Instr :=
  match opcodeTable.lookup d.opCode.val with
  | some mk => .ok (mk d.operands)
  | none => .error (.unknownOpCode d.opCode.val)

/-- The instruction a word stands for (R93), or the first fault its decoding and dispatch raise. -/
def decode (w : Word 5) : Except FaultKind Instr := do
  let d ← decodeFields w
  dispatch d

/-! The encoder (R80, R81, R86, R96). -/

/-- Byte 3 of an index specification (R82). -/
def encodeIndex : Option IndexReg → Byte
  | none => 0
  | some .i1 => 1
  | some .i2 => 2
  | some .i3 => 3
  | some .i4 => 4
  | some .i5 => 5
  | some .i6 => 6

/-- The operation code of an instruction (R91). -/
def Instr.opCode : Instr → Byte
  | .add _ => 1
  | .sub _ => 2
  | .lda _ => 8
  | .ld1 _ => 9
  | .ld2 _ => 10
  | .ld3 _ => 11
  | .ld4 _ => 12
  | .ld5 _ => 13
  | .ld6 _ => 14
  | .ldx _ => 15
  | .ldan _ => 16
  | .ld1n _ => 17
  | .ld2n _ => 18
  | .ld3n _ => 19
  | .ld4n _ => 20
  | .ld5n _ => 21
  | .ld6n _ => 22
  | .ldxn _ => 23
  | .sta _ => 24
  | .st1 _ => 25
  | .st2 _ => 26
  | .st3 _ => 27
  | .st4 _ => 28
  | .st5 _ => 29
  | .st6 _ => 30
  | .stx _ => 31
  | .stj _ => 32
  | .stz _ => 33

/-- The sign of an address: Plus for 0, as in R96. -/
def addressSign (a : Int) : Sign := if a < 0 then .minus else .plus

/-- The word of an instruction (R80): `[sgn(A), |A| / 64, |A| mod 64, I, 8L + R, C]` (R96). -/
def encode (i : Instr) : Word 5 :=
  word5 (addressSign i.operands.address)
    (Fin.ofNat 64 (i.operands.address.natAbs / 64))
    (Fin.ofNat 64 i.operands.address.natAbs)
    (encodeIndex i.operands.index)
    (Fin.ofNat 64 (encodeField i.operands.field))
    i.opCode

/-! The packing of opcode_table.json (R95, D10). No step depends on it. -/

/-- `pack(w)` (R95). -/
def pack (w : Word 5) : Nat :=
  (if w.sign = .minus then 2 ^ 30 else 0) + Machine.spanMag w 1 5

/-- The word a packed number stands for (R95), of its 31 low bits. -/
def unpack (v : Nat) : Word 5 :=
  ofMagnitude 5 (if v.testBit 30 then .minus else .plus) v

/-- The instruction the decoder reads from the packed word `w` of `nbits` bits (R95); `none` where it refuses, and for a
number of more than 31 bits, which packs no word. -/
def decodeTableWord (nbits w : Nat) : Option Instr :=
  let v := w % 2 ^ nbits
  if v < 2 ^ 31 then (decode (unpack v)).toOption else none

end Sys2Proof
end

