-- ==== Sys2Proof/Machine/Flags.lean ====
section
/-! DEFINITION. The overflow bit and the result word of ADD and SUB (45_arithmetic.md, R251 to R253). The comparison
indicator has no rule: no instruction in scope writes it (R31). -/

namespace Sys2Proof.Machine

/-- The true result `t` exceeds the representable magnitude of a Word<5> (R251). -/
abbrev exceeds (t : Int) : Prop := Config.maxMag5 < t.natAbs

/-- The stored magnitude `m` (R250, R251): `|t|`, wrapped modulo `WRAP_MODULUS` on overflow. -/
def storedMagnitude (p : Params) (t : Int) : Nat :=
  if exceeds t then t.natAbs % p.wrapModulus else t.natAbs

/-- The overflow bit after ADD or SUB (R253): On on overflow, else as it was. -/
def overflowAfter (t : Int) (ov : OverflowBit) : OverflowBit :=
  if exceeds t then .on else ov

/-- The sign of the result (R252): that of the true result; for 0 as `ZERO_RESULT_SIGN` decides. -/
def resultSign (p : Params) (t : Int) (old : Sign) : Sign :=
  if 0 < t then .plus
  else if t < 0 then .minus
  else match p.zeroResultSign with
    | .plus => .plus
    | .keepA => old

/-- `fromInt(t, m, s_old)` (R252). -/
def fromInt (p : Params) (t : Int) (m : Nat) (old : Sign) : Word 5 :=
  ofMagnitude 5 (resultSign p t old) m

end Sys2Proof.Machine
end

