-- ==== Sys2Proof/Machine/Memory.lean ====
section
/-! DEFINITION. Memory access (20_memory.md, R60 to R66): one whole Word<5> at an address 0..3999. -/

namespace Sys2Proof.Machine

/-- The word at an address; an address that is not listed holds the word of construction (R36). -/
def Memory.get : Memory → Nat → Word 5
  | [], _ => Word.zero 5
  | (b, v) :: m, a => if a = b then v else Memory.get m a

/-- `(a, w)` put in its place by address, into a memory that does not list `a`. -/
def Memory.insert (a : Nat) (w : Word 5) : Memory → Memory
  | [] => [(a, w)]
  | (b, v) :: m => if a < b then (a, w) :: (b, v) :: m else (b, v) :: Memory.insert a w m

/-- The memory without a cell for `a`. -/
def Memory.erase (m : Memory) (a : Nat) : Memory := m.filter fun c => c.1 ≠ a

/-- The memory with the word at `a` replaced, in canonical form: the word of construction is not listed. -/
def Memory.set (m : Memory) (a : Nat) (w : Word 5) : Memory :=
  if w = Word.zero 5 then m.erase a else Memory.insert a w (m.erase a)

/-- The addresses that exist, 0..3999 (R60, R64). The bound is compared as a natural number, which unfolds better. -/
abbrev addressExists (a : Int) : Prop := 0 ≤ a ∧ a.toNat < Config.memSize

/-- `MemRead(a, 1)` (R61). -/
def memRead (m : Memory) (a : Int) : Except FaultKind (Word 5) :=
  if addressExists a then .ok (m.get a.toNat) else .error (.indexError a)

/-- `MemWrite(a, 1, w)` (R62). -/
def memWrite (m : Memory) (a : Int) (w : Word 5) : Except FaultKind Memory :=
  if addressExists a then .ok (m.set a.toNat w) else .error (.indexError a)

end Sys2Proof.Machine
end

