-- ==== Sys2Proof/Machine/Operands.lean ====
section
/-! DEFINITION. Register access by number and the one operand form: the effective address (41_cycle.md, R156). -/

namespace Sys2Proof.Machine

/-- rIi (R28). -/
def State.index (s : State) : IndexReg → Word 2
  | .i1 => s.rI1
  | .i2 => s.rI2
  | .i3 => s.rI3
  | .i4 => s.rI4
  | .i5 => s.rI5
  | .i6 => s.rI6

/-- `rA <- w`. -/
def State.setA (s : State) (w : Word 5) : State := { s with rA := w }

/-- `rX <- w`. -/
def State.setX (s : State) (w : Word 5) : State := { s with rX := w }

/-- `rIi <- w`. -/
def State.setIndex (s : State) (i : IndexReg) (w : Word 2) : State :=
  match i with
  | .i1 => { s with rI1 := w }
  | .i2 => { s with rI2 := w }
  | .i3 => { s with rI3 := w }
  | .i4 => { s with rI4 := w }
  | .i5 => { s with rI5 := w }
  | .i6 => { s with rI6 := w }

/-- What the index specification adds to the address (R156): nothing for 0, else the signed value of the half-word,
`toInt(rIi, 0, 2)`. -/
def indexOffset (s : State) : Option IndexReg → Int
  | none => 0
  | some i => spanValue (s.index i) 0 2

/-- The effective address M (R156). It is not reduced modulo anything; the memory access checks it. -/
def effectiveAddress (o : Operands) (s : State) : Int := o.address + indexOffset s o.index

end Sys2Proof.Machine
end

