-- ==== Sys2Proof/Machine/Ops.lean ====
section
/-! DEFINITION. The shared operations: raising a fault, the pc advance, and the common semantics of the four families
(R180, R200, R220, R231, R250). -/

namespace Sys2Proof.Machine

/-! Raising a fault (R158, R281, R282, R285). There is no return from one (R286). -/

/-- The state after the instruction at `p` raised `k` (R158, R285): the state before it, with only the run status
changed here; the pc is where the phase that faulted left it. -/
def raiseFault (k : FaultKind) (p : Nat) (s : State) : State := { s with status := .faulted k p }

/-- The end of Execute (R155): the handler finished with its writes done, or raised a fault before any write. In Execute
the pc holds "the address of the executing instruction plus 1" (R29), so that instruction stands at `pc - 1`. -/
def complete (s : State) : Except FaultKind State → Result
  | .ok s' => .next s'
  | .error k => .next (raiseFault k (s.pc - 1) s)

/-- The pc advance of Decode (R153). -/
def State.advance (s : State) : State := { s with pc := s.pc + 1 }

/-- `MemWrite` on the machine's memory. -/
def State.setMem (s : State) (m : Memory) : State := { s with mem := m }

/-- Fetch (R151): the word at the pc. -/
def fetch (s : State) : Except FaultKind (Word 5) := memRead s.mem s.pc

/-! Load and Load-Negative. -/

/-- The register a Load writes (R180). -/
inductive LoadTarget where
  | a
  | x
  | index (i : IndexReg)
deriving DecidableEq, Repr

/-- `reg[r] <- c`, narrowed for an index register (R180, R123). -/
def State.setLoaded (s : State) (r : LoadTarget) (c : Word 5) : State :=
  match r with
  | .a => s.setA c
  | .x => s.setX c
  | .index i => s.setIndex i (narrow 2 c)

/-- `memory[effective_address(instr)].field_aligned_right(field)` (R180). -/
def loadContent (o : Operands) (s : State) : Except FaultKind (Word 5) := do
  let w ← memRead s.mem (effectiveAddress o s)
  fieldAlignedRight w o.field

/-- `Load(ins, r)` (R180). -/
def load (o : Operands) (r : LoadTarget) (s : State) : Except FaultKind State := do
  let c ← loadContent o s
  return s.setLoaded r c

/-- `LoadNeg(ins, r)` (R200): the sign is negated only if the field contains it. -/
def loadNeg (o : Operands) (r : LoadTarget) (s : State) : Except FaultKind State := do
  let c ← loadContent o s
  return s.setLoaded r (if o.field.containsSign then negateWord c else c)

/-! Store. -/

/-- The part of Store (R220) from the `k` rightmost bytes of the register on: extracted, widened to five bytes and
shifted left by `5 - R`. -/
def storeAligned {n : Nat} (v : Word n) (f : FieldSpec) : Except FaultKind (Word 5) := do
  let k : Int := f.byteCount
  let src ← if f.containsSign then rightmostBytesWithSign v k else rightmostBytes v k
  leftShift (widen 5 src) (5 - f.right)

/-- The content a Store puts into the field (R220), from a register of width `n`. With more bytes than the register has,
`HALF_STORE_WIDE` decides (R232). -/
def storeContent {n : Nat} (p : Params) (v : Word n) (f : FieldSpec) : Except FaultKind (Word 5) :=
  if n < f.byteCount then
    match p.halfStoreWide with
    | .fault => .error (.invalidArgument (.count f.byteCount))
    | .widen => storeAligned (widen 5 v) f
  else storeAligned v f

/-- The read-modify-write of a Store (R65, R220, R231): the field of the word at M is overwritten with that of `src`. -/
def storeField (o : Operands) (src : Word 5) (s : State) : Except FaultKind State := do
  let ea := effectiveAddress o s
  let old ← memRead s.mem ea
  let new ← copyRange old src o.field.left o.field.right
  let m ← memWrite s.mem ea new
  return s.setMem m

/-- `Store(ins, r)` (R220), where `v` is the register's word. The count check comes before the address check (R232). -/
def store {n : Nat} (p : Params) (o : Operands) (v : Word n) (s : State) : Except FaultKind State := do
  let src ← storeContent p v o.field
  storeField o src s

/-! Arithmetic. -/

/-- The two operations of the Arithmetic family (R250). -/
inductive ArithOp where
  | add
  | sub
deriving DecidableEq, Repr

/-- The true result `t` (R250), an exact integer. -/
def ArithOp.apply : ArithOp → Int → Int → Int
  | .add, a, b => a + b
  | .sub, a, b => a - b

/-- `reg[A] <- fromInt(t, m, reg[A].sign)` and the overflow bit (R250). -/
def State.setResult (s : State) (p : Params) (t : Int) : State :=
  { s with rA := fromInt p t (storedMagnitude p t) s.rA.sign, ov := overflowAfter t s.ov }

/-- `Arith(ins, op)` (R250): the field applies to rA as well as to the memory word (R254). -/
def arith (p : Params) (op : ArithOp) (o : Operands) (s : State) : Except FaultKind State := do
  let w ← memRead s.mem (effectiveAddress o s)
  let a ← toInt s.rA o.field.left o.field.right
  let b ← toInt w o.field.left o.field.right
  return s.setResult p (op.apply a b)

end Sys2Proof.Machine
end

