-- ==== Sys2Proof/Machine/Arithmetic.lean ====
section
/-! DEFINITION. The Arithmetic family: ADD and SUB (45_arithmetic.md). Each meaning runs in Execute, after the pc advance (R153). -/

namespace Sys2Proof.Machine

/-- ADD (R255): `Arith(ins, +)`. -/
def execAdd (o : Operands) (s : State) : Result :=
  complete s (arith Config.hardware .add o s)

/-- SUB (R256): `Arith(ins, -)`. -/
def execSub (o : Operands) (s : State) : Result :=
  complete s (arith Config.hardware .sub o s)

end Sys2Proof.Machine
end

