-- ==== Sys2Proof/Machine/Load.lean ====
section
/-! DEFINITION. The Load family (42_load.md). Each meaning runs in Execute, after the pc advance (R153). -/

namespace Sys2Proof.Machine

/-- LDA (R182): `Load(ins, A)`. -/
def execLda (o : Operands) (s : State) : Result :=
  complete s (load o .a s)

/-- LD1 (R184): `Load(ins, I1)`. -/
def execLd1 (o : Operands) (s : State) : Result :=
  complete s (load o (.index .i1) s)

/-- LD2 (R185): `Load(ins, I2)`. -/
def execLd2 (o : Operands) (s : State) : Result :=
  complete s (load o (.index .i2) s)

/-- LD3 (R186): `Load(ins, I3)`. -/
def execLd3 (o : Operands) (s : State) : Result :=
  complete s (load o (.index .i3) s)

/-- LD4 (R187): `Load(ins, I4)`. -/
def execLd4 (o : Operands) (s : State) : Result :=
  complete s (load o (.index .i4) s)

/-- LD5 (R188): `Load(ins, I5)`. -/
def execLd5 (o : Operands) (s : State) : Result :=
  complete s (load o (.index .i5) s)

/-- LD6 (R189): `Load(ins, I6)`. -/
def execLd6 (o : Operands) (s : State) : Result :=
  complete s (load o (.index .i6) s)

/-- LDX (R183): `Load(ins, X)`. -/
def execLdx (o : Operands) (s : State) : Result :=
  complete s (load o .x s)

end Sys2Proof.Machine
end

