-- ==== Sys2Proof/Machine/LoadNegative.lean ====
section
/-! DEFINITION. The Load-Negative family (43_load_negative.md). Each meaning runs in Execute, after the pc advance (R153). -/

namespace Sys2Proof.Machine

/-- LDAN (R202): `LoadNeg(ins, A)`. -/
def execLdan (o : Operands) (s : State) : Result :=
  complete s (loadNeg o .a s)

/-- LD1N (R204): `LoadNeg(ins, I1)`. -/
def execLd1n (o : Operands) (s : State) : Result :=
  complete s (loadNeg o (.index .i1) s)

/-- LD2N (R205): `LoadNeg(ins, I2)`. -/
def execLd2n (o : Operands) (s : State) : Result :=
  complete s (loadNeg o (.index .i2) s)

/-- LD3N (R206): `LoadNeg(ins, I3)`. -/
def execLd3n (o : Operands) (s : State) : Result :=
  complete s (loadNeg o (.index .i3) s)

/-- LD4N (R207): `LoadNeg(ins, I4)`. -/
def execLd4n (o : Operands) (s : State) : Result :=
  complete s (loadNeg o (.index .i4) s)

/-- LD5N (R208): `LoadNeg(ins, I5)`. -/
def execLd5n (o : Operands) (s : State) : Result :=
  complete s (loadNeg o (.index .i5) s)

/-- LD6N (R209): `LoadNeg(ins, I6)`. -/
def execLd6n (o : Operands) (s : State) : Result :=
  complete s (loadNeg o (.index .i6) s)

/-- LDXN (R203): `LoadNeg(ins, X)`. -/
def execLdxn (o : Operands) (s : State) : Result :=
  complete s (loadNeg o .x s)

end Sys2Proof.Machine
end

