-- ==== Sys2Proof/Machine/Store.lean ====
section
/-! DEFINITION. The Store family (44_store.md). Each meaning runs in Execute, after the pc advance (R153). -/

namespace Sys2Proof.Machine

/-- STA (R222): `Store(ins, A)`. -/
def execSta (o : Operands) (s : State) : Result :=
  complete s (store Config.hardware o s.rA s)

/-- ST1 (R225): `Store(ins, I1)`. -/
def execSt1 (o : Operands) (s : State) : Result :=
  complete s (store Config.hardware o s.rI1 s)

/-- ST2 (R226): `Store(ins, I2)`. -/
def execSt2 (o : Operands) (s : State) : Result :=
  complete s (store Config.hardware o s.rI2 s)

/-- ST3 (R227): `Store(ins, I3)`. -/
def execSt3 (o : Operands) (s : State) : Result :=
  complete s (store Config.hardware o s.rI3 s)

/-- ST4 (R228): `Store(ins, I4)`. -/
def execSt4 (o : Operands) (s : State) : Result :=
  complete s (store Config.hardware o s.rI4 s)

/-- ST5 (R229): `Store(ins, I5)`. -/
def execSt5 (o : Operands) (s : State) : Result :=
  complete s (store Config.hardware o s.rI5 s)

/-- ST6 (R230): `Store(ins, I6)`. -/
def execSt6 (o : Operands) (s : State) : Result :=
  complete s (store Config.hardware o s.rI6 s)

/-- STX (R223): `Store(ins, X)`. -/
def execStx (o : Operands) (s : State) : Result :=
  complete s (store Config.hardware o s.rX s)

/-- STJ (R224): `Store(ins, J)`. -/
def execStj (o : Operands) (s : State) : Result :=
  complete s (store Config.hardware o s.rJ s)

/-- STZ (R231): stores the word `[+, 0, 0, 0, 0, 0]` and has no count check. -/
def execStz (o : Operands) (s : State) : Result :=
  complete s (storeField o (Word.zero 5) s)

end Sys2Proof.Machine
end

