-- ==== Sys2Proof/Machine/Cycle.lean ====
section
/-! DEFINITION. The fetch/decode/execute cycle (41_cycle.md, R150 to R158). -/

namespace Sys2Proof.Machine

/-- Execute (R150, R154): dispatch, whose fault leaves the pc advanced (R154), then the handler. -/
def executeDecoded (d : Decoded) (s : State) : Result :=
  match dispatch d with
  | .error k => .next (raiseFault k (s.pc - 1) s)
  | .ok i => exec i s

/-- The three phases of a running machine (R150). A fault of Fetch or Decode leaves the pc where it was (R151, R152);
after a successful Decode it is advanced, before Execute (R153). -/
def cycle (s : State) : Result :=
  match fetch s with
  | .error k => .next (raiseFault k s.pc s)
  | .ok w =>
    match decodeFields w with
    | .error k => .next (raiseFault k s.pc s)
    | .ok d => executeDecoded d s.advance

/-- `execute_next_instruction()` (R150): a faulted machine has no step (R284). -/
def stepOf (s : State) : Result :=
  match s.status with
  | .running => cycle s
  | .faulted k p => .fault (.stopped k p)

/-- The memory with the packed word `v` (R95) at the pc, where an address of that number exists. -/
def placeWord (s : State) (v : Nat) : State :=
  if s.pc < Config.memSize then s.setMem (s.mem.set s.pc (unpack v)) else s

end Sys2Proof.Machine
end

