-- ==== Sys2Proof/Machine/Step.lean ====
section
/-! DEFINITION. The step of the machine, and the state whose next step fetches a given word. -/

namespace Sys2Proof.Machine

/-- One step (R150). -/
def step (s : State) : Host.Outcome State Fault Refusal := stepOf s

/-- `s` with the packed word `w` of `nbits` bits (R95) at its pc, where the next step fetches (R151). It stands for a
write of the loader or the host (R312, log entry 5). -/
def State.withFetchWord (s : State) (nbits w : Nat) : State := placeWord s (w % 2 ^ nbits)

end Sys2Proof.Machine
end

