-- ==== Sys2Proof/Machine/Accessors.lean ====
section
/-! DEFINITION. The accessor surface the core gives its host (10_state.md, R37, R38), used between steps (R40). There is
no write accessor for rX, rJ, the pc, the overflow bit or the comparison indicator. -/

namespace Sys2Proof.Machine

/-- `accumulator()` (R37). -/
def accumulator (s : State) : Word 5 := s.rA

/-- `accumulator(w)` (R37). -/
def setAccumulator (w : Word 5) (s : State) : State := s.setA w

/-- `extension_register()` (R37). -/
def extensionRegister (s : State) : Word 5 := s.rX

/-- `jump_register()` (R37). -/
def jumpRegister (s : State) : Word 2 := s.rJ

/-- The index register of a number; none outside [1, 6] (R28). -/
def indexRegOf (n : Int) : Option IndexReg :=
  if n = 1 then some .i1
  else if n = 2 then some .i2
  else if n = 3 then some .i3
  else if n = 4 then some .i4
  else if n = 5 then some .i5
  else if n = 6 then some .i6
  else none

/-- `index_register(n)` (R37, R38). -/
def indexRegister (n : Int) (s : State) : Except FaultKind (Word 2) :=
  match indexRegOf n with
  | some i => .ok (s.index i)
  | none => .error (.indexError n)

/-- `index_register(n, hw)` (R37, R38). -/
def setIndexRegister (n : Int) (hw : Word 2) (s : State) : Except FaultKind State :=
  match indexRegOf n with
  | some i => .ok (s.setIndex i hw)
  | none => .error (.indexError n)

/-- `memory_cell(addr)` (R37, R38). -/
def memoryCell (addr : Int) (s : State) : Except FaultKind (Word 5) := memRead s.mem addr

/-- `memory_cell(addr, w)` (R37, R38). -/
def setMemoryCell (addr : Int) (w : Word 5) (s : State) : Except FaultKind State := do
  let m ← memWrite s.mem addr w
  return s.setMem m

/-- `execute_next_instruction()` (R37, R150). -/
def executeNextInstruction (s : State) : Result := step s

/-- `program_counter()` (R37). -/
def programCounter (s : State) : Nat := s.pc

/-- `overflow_bit()` (R37). -/
def overflowBit (s : State) : OverflowBit := s.ov

/-- `comparison_indicator()` (R37). -/
def comparisonIndicator (s : State) : Comparison := s.ci

/-- What a step reports to its caller (R282): the kind and operand of the fault, and the pc of the instruction. -/
def reportedFault (s : State) : Option (FaultKind × Nat) :=
  match s.status with
  | .running => none
  | .faulted k p => some (k, p)

end Sys2Proof.Machine
end

