-- ==== Sys2Proof/Machine/Text.lean ====
section
/-! DEFINITION. The text word format and the loader at the core's boundary (40_word_datapath.md, R125;
70_reset_and_hazards.md, R312 to R316). Nothing here is part of a step. -/

namespace Sys2Proof.Machine

/-! Writing (R314). -/

/-- The sign character (R314). -/
def signChar : Sign → Char
  | .plus => '+'
  | .minus => '-'

/-- A Word<N> as text (R314): a sign character and exactly N byte characters, with no separators. -/
def writeWord {n : Nat} (code : ByteCharCode) (w : Word n) : List Char :=
  signChar w.sign :: w.bytes.toList.map code.char

/-- "a sequence of words is simply this format repeated with no delimiter" (R314). -/
def writeWords {n : Nat} (code : ByteCharCode) (ws : List (Word n)) : List Char :=
  ws.flatMap (writeWord code)

/-! Reading (R125, R315). -/

/-- The sign a character stands for; any other character is no sign (R21). -/
def signOfChar (c : Char) : Except FaultKind Sign :=
  if c = '+' then .ok .plus else if c = '-' then .ok .minus else .error (.invalidSign (some c))

/-- The sign read at the head of the input: Invalid for a character that is no sign, or for none (R125). The word is
marked, and no InvalidSign with that character is passed on: DESIGN CHOICE, log entry 14. -/
def readTextSign : List Char → TextSign
  | [] => .invalid
  | c :: _ =>
    match signOfChar c with
    | .ok .plus => .plus
    | .ok .minus => .minus
    | .error _ => .invalid

/-- The byte a character stands for. A character of no byte is marked invalid (R20, log entry 7). -/
def readTextByte (code : ByteCharCode) (c : Char) : TextByte :=
  match (List.finRange 64).find? fun b => code.char b = c with
  | some b => .byte b
  | none => .sentinel

/-- One word read from the input, and the input after it. A byte past the end of the input is the sentinel (R315). -/
def readWord (code : ByteCharCode) (n : Nat) (input : List Char) : TextWord n × List Char :=
  (⟨readTextSign input, Vector.ofFn fun k =>
      match input[k.val + 1]? with
      | some c => readTextByte code c
      | none => .sentinel⟩,
    input.drop (n + 1))

/-- The words of an input, read until it is exhausted; `fuel` words at most. -/
def readWordsFuel (code : ByteCharCode) (n : Nat) : Nat → List Char → List (TextWord n)
  | 0, _ => []
  | _ + 1, [] => []
  | fuel + 1, input => (readWord code n input).1 :: readWordsFuel code n fuel (readWord code n input).2

/-- The words of an input: a word takes at least one character, so the input's length is fuel enough. -/
def readWords (code : ByteCharCode) (n : Nat) (input : List Char) : List (TextWord n) :=
  readWordsFuel code n input.length input

/-- The live byte of a byte of text, if it has one. -/
def liveByte : TextByte → Option Byte
  | .byte b => some b
  | .sentinel => none

/-- The live sign of a sign of text, if it has one. -/
def liveSign : TextSign → Option Sign
  | .plus => some .plus
  | .minus => some .minus
  | .invalid => none

/-- `is_valid()` (R23). -/
abbrev textValid {n : Nat} (w : TextWord n) : Prop :=
  w.sign ≠ .invalid ∧ ∀ b ∈ w.bytes.toList, b ≠ .sentinel

/-- The live word of a word of text; none if it is not valid (R23). -/
def liveWord {n : Nat} (w : TextWord n) : Option (Word n) :=
  if textValid w then
    some ⟨(liveSign w.sign).getD .plus, Vector.ofFn fun k => (liveByte w.bytes[k]).getD 0⟩
  else none

/-! The loader (R312, R313). -/

/-- Why a load failed. -/
inductive LoadFailure where
  /-- "it fails before calling the core if the source is empty or unreadable" (R313). -/
  | noSource
  /-- A word was rejected (R313), or the core's accessor failed (R38). -/
  | raised (k : FaultKind)
deriving DecidableEq, Repr

/-- The loader from address `a` on: it hands the valid words to `memory_cell` in order and stops at its first failure,
with what it has written so far in place (log entry 7). A word that is not valid is reported as InvalidWord with the word,
also where its sign is the bad part: R280 lists InvalidSign and InvalidWord together and does not say which, so this is
the model's choice (DESIGN CHOICE, log entry 14). -/
def loadWordsFrom : Nat → List (TextWord 5) → State → State × Option LoadFailure
  | _, [], s => (s, none)
  | a, w :: ws, s =>
    match liveWord w with
    | none => (s, some (.raised (.invalidWord w)))
    | some v =>
      match setMemoryCell a v s with
      | .error k => (s, some (.raised k))
      | .ok s' => loadWordsFrom (a + 1) ws s'

/-- The loader (R313): a stream of words, at addresses 0, 1, 2, … in order; an empty source fails. -/
def loadWords (ws : List (TextWord 5)) (s : State) : State × Option LoadFailure :=
  if ws = [] then (s, some .noSource) else loadWordsFrom 0 ws s

/-- The loader on a text source; none is an unreadable one (R313). -/
def loadText (code : ByteCharCode) (source : Option (List Char)) (s : State) : State × Option LoadFailure :=
  match source with
  | none => (s, some .noSource)
  | some input => loadWords (readWords code 5 input) s

/-- A live word as the loader receives it. -/
def textOf {n : Nat} (w : Word n) : TextWord n :=
  ⟨match w.sign with
    | .plus => .plus
    | .minus => .minus, Vector.ofFn fun k => .byte w.bytes[k]⟩

/-- Boot (R312): construct the machine, then load. -/
def boot (ws : List (TextWord 5)) : State × Option LoadFailure := loadWords ws State.reset

end Sys2Proof.Machine
end

