-- ==== Sys2Proof/Safety.lean ====
section
/-! DEFINITION. What the claims call a good state, and how a run ends. -/

namespace Sys2Proof.Machine

/-- A fault that a step raised at `p` (R283): its operand really is out of bounds, and the pc is where the table of R283
leaves it. The kinds no step raises are none. -/
def StepFault (pc : Nat) (p : Nat) : FaultKind → Prop
  | .indexError a =>
    (pc = p ∧ a = p ∧ Config.memSize ≤ p) ∨ (pc = p + 1 ∧ ¬ addressExists a ∧ -8190 ≤ a ∧ a ≤ 8190)
  | .invalidIndexSpec i => pc = p ∧ 7 ≤ i ∧ i ≤ 63
  | .invalidArgument (.field f) => pc = p ∧ f ≤ 63 ∧ ¬ (decodeField f).ValidFor 5
  | .invalidArgument (.count k) => pc = p + 1 ∧ 3 ≤ k ∧ k ≤ 5
  | .unknownOpCode c => pc = p + 1 ∧ c ≤ 63 ∧ opcodeTable.lookup c = none
  | _ => False

/-- The run status is Running, or records a fault that a step can raise (R39, R283). -/
def StatusWf (s : State) : Prop :=
  match s.status with
  | .running => True
  | .faulted k p => StepFault s.pc p k

/-- What holds of the machine at every step boundary: memory is in canonical form, rJ and the comparison indicator hold
their reset values (R27, R31), the pc has not passed 4000 (R161), and the run status is that of a step. -/
def StateWf (s : State) : Prop :=
  s.mem.wf ∧ s.rJ = Word.zero 2 ∧ s.ci = .equal ∧ s.pc ≤ Config.memSize ∧ StatusWf s

/-- A safe state: no step has faulted. -/
abbrev Running (s : State) : Prop := s.status = .running

end Sys2Proof.Machine
end

