-- ==== Sys2Proof/Certificates/Slice0/Obligations.lean ====
section
/-! DEFINITION. The statements for the provers. Those about a rule of spec/ name it; those that rest on a decision of
the spec (spec/92_eei_decisions.md) or on a choice of the model say so. -/

open Sys2Proof Sys2Proof.Machine

/-! The words the statements use. They are written from the spec's own text, not over the operations they speak of. -/

/-- The first byte position of a field, `max(L, 1)` (R119). -/
def Claims.first (f : FieldSpec) : Nat := max f.left 1

/-- `bytes(f)` in the form R - max(L, 1) + 1 (R88). -/
def Claims.count (f : FieldSpec) : Nat := f.right + 1 - max f.left 1

/-- The number of positions `lo..hi` of a word, as a sum of base-64 digits (R15, R63). -/
def Claims.digits {n : Nat} (w : Word n) (lo hi : Nat) : Nat :=
  ∑ i ∈ Finset.Icc lo hi, (w.byteAt i).val * 64 ^ (hi - i)

/-- The signed number of a field (R117): negated if the field holds the sign and the sign is Minus. -/
def Claims.number {n : Nat} (w : Word n) (f : FieldSpec) : Int :=
  if f.left = 0 ∧ w.sign = .minus then -(Claims.digits w (Claims.first f) f.right : Int)
  else Claims.digits w (Claims.first f) f.right

/-- The instruction's field is valid and its effective address exists: then nothing it does can fault, but for the
count check of a half-word Store. -/
abbrev Claims.Reaches (o : Operands) (s : State) : Prop :=
  o.field.ValidFor 5 ∧ 0 ≤ effectiveAddress o s ∧ effectiveAddress o s < 4000

/-- The memory word at the effective address. -/
def Claims.operand (o : Operands) (s : State) : Word 5 := s.mem.get (effectiveAddress o s).toNat

/-- `c` holds the bytes of field `f` of `w` at its right edge, and zeros before them (R180, R181). -/
def Claims.BytesRight (w : Word 5) (f : FieldSpec) (c : Word 5) : Prop :=
  ∀ i, 1 ≤ i → i ≤ 5 →
    c.byteAt i = if 5 < i + Claims.count f then w.byteAt (f.right + i - 5) else 0

/-- `c` holds the last two bytes of field `f` of `w`; a byte the field does not have is zero (R181, R123). -/
def Claims.HalfRight (w : Word 5) (f : FieldSpec) (c : Word 2) : Prop :=
  c.byteAt 2 = (if 1 ≤ Claims.count f then w.byteAt f.right else 0) ∧
    c.byteAt 1 = if 2 ≤ Claims.count f then w.byteAt (f.right - 1) else 0

/-- The sign a Load takes from `w` through `f` (R181). -/
def Claims.loadSign (w : Word 5) (f : FieldSpec) : Sign := if f.left = 0 then w.sign else .plus

/-- The sign a Load-Negative takes from `w` through `f` (R201): the opposite one if the field holds the sign. -/
def Claims.loadNegSign (w : Word 5) (f : FieldSpec) : Sign :=
  if f.left = 0 then (match w.sign with | .plus => .minus | .minus => .plus) else .plus

/-- `t` is `s` with one word of memory written, the one at the effective address: in the field `f` it holds the rightmost
bytes of the register `v`, and its sign if the field holds the sign; elsewhere what was there (R221). -/
def Claims.Stored {n : Nat} (o : Operands) (v : Word n) (s t : State) : Prop :=
  t = { s with mem := t.mem } ∧
    (∀ a : Int, a ≠ effectiveAddress o s → memRead t.mem a = memRead s.mem a) ∧
    ∃ w, memRead t.mem (effectiveAddress o s) = .ok w ∧
      w.sign = (if o.field.left = 0 then v.sign else (Claims.operand o s).sign) ∧
      ∀ i, 1 ≤ i → i ≤ 5 → w.byteAt i =
        if Claims.first o.field ≤ i ∧ i ≤ o.field.right then v.byteAt (n + i - o.field.right)
        else (Claims.operand o s).byteAt i

/-- The state a fault of Execute leaves: only the run status is changed (R158, R285; log entry 1). -/
def Claims.faulted (k : FaultKind) (s : State) : State := { s with status := .faulted k (s.pc - 1) }

/-- The Stores from a half-word register. -/
def Claims.halfStores (o : Operands) : List Instr :=
  [.stj o, .st1 o, .st2 o, .st3 o, .st4 o, .st5 o, .st6 o]

/-- The Store family (R91). -/
def Claims.isStore : Instr → Bool
  | .sta _ | .stx _ | .stj _ | .st1 _ | .st2 _ | .st3 _ | .st4 _ | .st5 _ | .st6 _ | .stz _ => true
  | _ => false

/-- The Arithmetic family (R91). -/
def Claims.isArithmetic : Instr → Bool
  | .add _ | .sub _ => true
  | _ => false

/-! Fields and the datapath. -/

/-- R85, R86, R89: the field codec, and that its two directions are exact inverses on the valid fields. -/
def Obligations.FieldCodecIsABijection : Prop :=
  (∀ e, decodeField e = ⟨e / 8, e % 8⟩ ∧ (e < 64 → (decodeField e).left ≤ 7 ∧ (decodeField e).right ≤ 7)) ∧
    (∀ f : FieldSpec, encodeField f = f.right + f.left * 8) ∧
    (∀ f : FieldSpec, f.ValidFor 5 → decodeField (encodeField f) = f) ∧
    (∀ e, (decodeField e).ValidFor 5 → encodeField (decodeField e) = e) ∧
    encodeField ⟨0, 5⟩ = 5 ∧ encodeField ⟨4, 4⟩ = 36 ∧ encodeField ⟨1, 5⟩ = 13

/-- R87 for N = 5, with its derived remark on the other 43 values: a field byte passes the check exactly if it is one of
the 21 listed values, and else fails with InvalidArgument. -/
def Obligations.TwentyOneFieldBytesAreValid : Prop :=
  ∀ e, e < 64 →
    if e ∈ [0, 1, 2, 3, 4, 5, 9, 10, 11, 12, 13, 18, 19, 20, 21, 27, 28, 29, 36, 37, 45] then
      decodeFieldSpec e = .ok ⟨e / 8, e % 8⟩
    else decodeFieldSpec e = .error (.invalidArgument (.field e))

/-- R110, R111: a byte is read and written at 1..N, and any other position fails with IndexError. -/
def Obligations.ByteAccessIsBounded : Prop :=
  ∀ (n : Nat) (w : Word n) (i : Int) (v : Byte),
    if 1 ≤ i ∧ i ≤ n then
      readByte w i = .ok (w.byteAt i.toNat) ∧
        ∃ r, writeByte w i v = .ok r ∧ r.sign = w.sign ∧
          ∀ j, r.byteAt j = if (j : Int) = i then v else w.byteAt j
    else readByte w i = .error (.indexError i) ∧ writeByte w i v = .error (.indexError i)

/-- R112: a sign write puts Plus or Minus and fails with InvalidSign on anything else; negation flips the sign. -/
def Obligations.SignWriteAndNegation : Prop :=
  ∀ (n : Nat) (w : Word n),
    writeSign w .plus = .ok { w with sign := .plus } ∧ writeSign w .minus = .ok { w with sign := .minus } ∧
      (∃ c, writeSign w .invalid = .error (.invalidSign c)) ∧
      (w.sign = .plus → negateWord w = { w with sign := .minus }) ∧
      (w.sign = .minus → negateWord w = { w with sign := .plus })

/-- R114: left shift. -/
def Obligations.LeftShiftMovesBytesTowardByteOne : Prop :=
  ∀ (n : Nat) (w : Word n) (k : Int),
    if k < 0 then leftShift w k = .error (.invalidArgument (.shift k))
    else ∃ r, leftShift w k = .ok r ∧ r.sign = w.sign ∧
      (∀ i : Nat, 1 ≤ i → i ≤ n → r.byteAt i = if (i : Int) + k ≤ n then w.byteAt (i + k.toNat) else 0) ∧
      ((n : Int) ≤ k → ∀ i, r.byteAt i = 0)

/-- R113, whose direction is the spec's derivation: right shift. -/
def Obligations.RightShiftMovesBytesTowardByteN : Prop :=
  ∀ (n : Nat) (w : Word n) (k : Int),
    if k < 0 then rightShift w k = .error (.invalidArgument (.shift k))
    else ∃ r, rightShift w k = .ok r ∧ r.sign = w.sign ∧
      (∀ i : Nat, 1 ≤ i → i ≤ n → r.byteAt i = if 1 ≤ (i : Int) - k then w.byteAt (i - k.toNat) else 0) ∧
      ((n : Int) ≤ k → ∀ i, r.byteAt i = 0)

/-- R115, R116: the rotations, that a multiple of N is a no-op, and that a right rotation undoes a left one. -/
def Obligations.RotationsPermuteBytesAndUndoEachOther : Prop :=
  ∀ (n : Nat) (w : Word n) (k : Int),
    if k < 0 then
      rotateRight w k = .error (.invalidArgument (.rotate k)) ∧
        rotateLeft w k = .error (.invalidArgument (.rotate k))
    else ∃ r l, rotateRight w k = .ok r ∧ rotateLeft w k = .ok l ∧ r.sign = w.sign ∧ l.sign = w.sign ∧
      (∀ i : Nat, 1 ≤ i → i ≤ n → r.byteAt i = w.byteAt ((((i : Int) - 1 - k) % n).toNat + 1)) ∧
      (∀ i : Nat, 1 ≤ i → i ≤ n → l.byteAt i = w.byteAt ((((i : Int) - 1 + k) % n).toNat + 1)) ∧
      (k % n = 0 → r = w ∧ l = w) ∧ (k < n → rotateRight l k = .ok w)

/-- R117 with the span rule of decision D12: `toInt` is the signed base-64 number of the span, and any other span
fails. -/
def Obligations.ToIntIsTheSignedBase64Number : Prop :=
  ∀ (n : Nat) (w : Word n) (first last : Int),
    if 0 ≤ first ∧ first ≤ last ∧ last ≤ n then
      toInt w first last = .ok (Claims.number w ⟨first.toNat, last.toNat⟩)
    else toInt w first last = .error (.invalidArgument (.span first last))

/-- R118: range copy. -/
def Obligations.CopyRangeCopiesTheRangeOnly : Prop :=
  ∀ (n : Nat) (self source : Word n) (first last : Int),
    if last < first ∨ first < 0 ∨ (n : Int) < last then
      copyRange self source first last = .error (.invalidArgument (.range first last))
    else ∃ r, copyRange self source first last = .ok r ∧
      r.sign = (if first = 0 then source.sign else self.sign) ∧
      ∀ i : Nat, 1 ≤ i → i ≤ n →
        r.byteAt i = if first ≤ i ∧ (i : Int) ≤ last then source.byteAt i else self.byteAt i

/-- R119, R120: field alignment to either edge, for every word width and every field valid for it. -/
def Obligations.FieldAlignmentMovesTheFieldToTheEdge : Prop :=
  ∀ (n : Nat) (w : Word n) (f : FieldSpec), f.ValidFor n →
    ∃ r l, fieldAlignedRight w f = .ok r ∧ fieldAlignedLeft w f = .ok l ∧
      r.sign = (if f.left = 0 then w.sign else .plus) ∧ l.sign = (if f.left = 0 then w.sign else .plus) ∧
      (∀ j, j < Claims.count f → r.byteAt (n - Claims.count f + 1 + j) = w.byteAt (Claims.first f + j) ∧
        l.byteAt (1 + j) = w.byteAt (Claims.first f + j)) ∧
      (∀ i, i ≤ n - Claims.count f → r.byteAt i = 0) ∧ ∀ i, Claims.count f < i → l.byteAt i = 0

/-- R121, R122, whose result shape is decision D12: extraction from either end, in place, with sign Plus or the word's. -/
def Obligations.EndExtractionKeepsBytesInPlace : Prop :=
  ∀ (n : Nat) (w : Word n) (k : Int),
    if k < 0 ∨ (n : Int) < k then
      rightmostBytes w k = .error (.invalidArgument (.count k)) ∧
        rightmostBytesWithSign w k = .error (.invalidArgument (.count k)) ∧
        leftmostBytes w k = .error (.invalidArgument (.count k)) ∧
        leftmostBytesWithSign w k = .error (.invalidArgument (.count k))
    else ∃ r l, rightmostBytes w k = .ok r ∧ leftmostBytes w k = .ok l ∧
      r.sign = .plus ∧ l.sign = .plus ∧
      rightmostBytesWithSign w k = .ok { r with sign := w.sign } ∧
      leftmostBytesWithSign w k = .ok { l with sign := w.sign } ∧
      (∀ i : Nat, 1 ≤ i → i ≤ n → r.byteAt i = if (n : Int) - k + 1 ≤ i then w.byteAt i else 0) ∧
      ∀ i : Nat, 1 ≤ i → i ≤ n → l.byteAt i = if (i : Int) ≤ k then w.byteAt i else 0

/-- R123, R124: narrowing keeps the sign and the rightmost bytes, widening puts zero bytes at the left, the same width is
the identity, and widening then narrowing back gives the word again. -/
def Obligations.WideningThenNarrowingIsTheIdentity : Prop :=
  ∀ (n m : Nat) (w : Word n),
    (m ≤ n → (narrow m w).sign = w.sign ∧
      ∀ j, 1 ≤ j → j ≤ m → (narrow m w).byteAt j = w.byteAt (n - m + j)) ∧
    (n ≤ m → (widen m w).sign = w.sign ∧
      (∀ j, 1 ≤ j → j ≤ m → (widen m w).byteAt j = if j ≤ m - n then 0 else w.byteAt (j - (m - n))) ∧
      narrow n (widen m w) = w) ∧
    widen n w = w ∧ narrow n w = w

/-! Memory and the effective address. -/

/-- R61, R62: a read or a write moves one word at an address 0..3999, and fails with IndexError elsewhere; a write is
seen by every later read of its address and by no other read. -/
def Obligations.ReadAfterWriteAndAddressBounds : Prop :=
  ∀ (m : Memory) (a : Int) (w : Word 5),
    if 0 ≤ a ∧ a < 4000 then
      memRead m a = .ok (m.get a.toNat) ∧
        ∃ m', memWrite m a w = .ok m' ∧ memRead m' a = .ok w ∧
          ∀ b : Int, b ≠ a → memRead m' b = memRead m b
    else memRead m a = .error (.indexError a) ∧ memWrite m a w = .error (.indexError a)

/-- R156, with its range: the effective address is the address plus the signed value of the named index register, and lies
in -8190..8190 for well-formed operands. -/
def Obligations.EffectiveAddressIsAddressPlusIndex : Prop :=
  ∀ (o : Operands) (s : State),
    (o.index = none → effectiveAddress o s = o.address) ∧
      (∀ p ∈ [(IndexReg.i1, s.rI1), (.i2, s.rI2), (.i3, s.rI3), (.i4, s.rI4), (.i5, s.rI5), (.i6, s.rI6)],
        o.index = some p.1 → effectiveAddress o s = o.address +
          (if p.2.sign = .minus then -1 else 1) * ((p.2.byteAt 1).val * 64 + (p.2.byteAt 2).val : Int)) ∧
      (o.WellFormed → -8190 ≤ effectiveAddress o s ∧ effectiveAddress o s ≤ 8190)

/-! Decode and encode. -/

/-- R81: address assembly, its range, and that negative zero is 0. -/
def Obligations.AddressIsSignAndTwoBytes : Prop :=
  ∀ (w : Word 5) (d : Decoded), decodeFields w = .ok d →
    d.operands.address =
        (if w.sign = .minus then -1 else 1) * ((w.byteAt 1).val * 64 + (w.byteAt 2).val : Int) ∧
      -4095 ≤ d.operands.address ∧ d.operands.address ≤ 4095 ∧
      (w.byteAt 1 = 0 → w.byteAt 2 = 0 → d.operands.address = 0)

/-- R82: the index specification is byte 3, and 7..63 fail with InvalidIndexSpec. -/
def Obligations.IndexByteSelectsTheIndexRegister : Prop :=
  ∀ w : Word 5,
    (7 ≤ (w.byteAt 3).val → decodeFields w = .error (.invalidIndexSpec (w.byteAt 3).val)) ∧
      ∀ d, decodeFields w = .ok d →
        ((w.byteAt 3).val, d.operands.index) ∈
          [(0, none), (1, some IndexReg.i1), (2, some .i2), (3, some .i3), (4, some .i4), (5, some .i5),
            (6, some .i6)]

/-- Decode and encode agree: decoding the encoding of any well-formed instruction gives it back, with every address, index
specification and field an encoding admits. The operation codes are those of decision D1. -/
def Obligations.DecodeOfEncodeIsTheInstruction : Prop :=
  ∀ i : Instr, i.WellFormed → decode (encode i) = .ok i

/-- The other direction: a word that decodes is the encoding of what it decodes to, but for the sign of a negative zero
address, which decode drops (R81). -/
def Obligations.EncodeOfDecodeIsTheWord : Prop :=
  ∀ (w : Word 5) (i : Instr), decode w = .ok i →
    i.WellFormed ∧ (∀ j, 1 ≤ j → j ≤ 5 → (encode i).byteAt j = w.byteAt j) ∧
      (i.operands.address ≠ 0 → encode i = w) ∧ (i.operands.address = 0 → encode i = { w with sign := .plus })

/-- R93, with the opcodes of decision D1: which words are legal instructions. -/
def Obligations.ExactlyTheLegalWordsDecode : Prop :=
  ∀ w : Word 5,
    (∃ i, decode w = .ok i) ↔
      (w.byteAt 3).val ≤ 6 ∧
      (w.byteAt 4).val ∈ [0, 1, 2, 3, 4, 5, 9, 10, 11, 12, 13, 18, 19, 20, 21, 27, 28, 29, 36, 37, 45] ∧
      ((w.byteAt 5).val = 1 ∨ (w.byteAt 5).val = 2 ∨ (8 ≤ (w.byteAt 5).val ∧ (w.byteAt 5).val ≤ 33))

/-- R90, R92, R93 in the order of decision D6: the first illegal part of a word is the one reported. -/
def Obligations.TheFirstIllegalPartIsReported : Prop :=
  ∀ w : Word 5,
    if 7 ≤ (w.byteAt 3).val then decode w = .error (.invalidIndexSpec (w.byteAt 3).val)
    else if (w.byteAt 4).val % 8 < (w.byteAt 4).val / 8 ∨ 5 < (w.byteAt 4).val % 8 then
      decode w = .error (.invalidArgument (.field (w.byteAt 4).val))
    else if (w.byteAt 5).val = 1 ∨ (w.byteAt 5).val = 2 ∨ (8 ≤ (w.byteAt 5).val ∧ (w.byteAt 5).val ≤ 33) then
      ∃ i, decode w = .ok i
    else decode w = .error (.unknownOpCode (w.byteAt 5).val)

/-- A few words written out from the encoding (R80, R91, R97, vectors L-1, N-5, S-11, A-1) decode to what they stand
for. -/
def Obligations.SampleWordsDecode : Prop :=
  decode (word5 .plus 1 36 2 5 8) = .ok (.lda ⟨100, some .i2, ⟨0, 5⟩⟩) ∧
    decode (word5 .plus 1 36 0 3 23) = .ok (.ldxn ⟨100, none, ⟨0, 3⟩⟩) ∧
    decode (word5 .minus 3 8 1 28 25) = .ok (.st1 ⟨-200, some .i1, ⟨3, 4⟩⟩) ∧
    decode (word5 .plus 7 52 0 5 1) = .ok (.add ⟨500, none, ⟨0, 5⟩⟩)

/-- R95, which is decision D10: packing and unpacking are inverse on the 31-bit numbers. -/
def Obligations.PackAndUnpackAreInverse : Prop :=
  (∀ w : Word 5, pack w < 2 ^ 31 ∧ unpack (pack w) = w) ∧ ∀ v, v < 2 ^ 31 → pack (unpack v) = v

/-! The step. -/

/-- A step runs the decoded instruction (R150, R151, R153): on a running machine whose pc exists, step is exec of the
instruction the word at the pc decodes to, at the state with the pc advanced. -/
def Obligations.StepRunsTheDecodedInstruction : Prop :=
  ∀ (s : State) (i : Instr), s.status = .running → s.pc < 4000 → decode (s.mem.get s.pc) = .ok i →
    step s = exec i { s with pc := s.pc + 1 }

/-- The faults a step raises before an instruction runs (R151, R152, R154, in the order of decision D6, with the pc of
decision D7 and the run status of decision D8, recorded as log entry 1 says). -/
def Obligations.FetchDecodeAndDispatchFaults : Prop :=
  ∀ s : State, s.status = .running →
    (4000 ≤ s.pc → step s = .next { s with status := .faulted (.indexError s.pc) s.pc }) ∧
      (s.pc < 4000 → ∀ w, s.mem.get s.pc = w →
        (7 ≤ (w.byteAt 3).val →
          step s = .next { s with status := .faulted (.invalidIndexSpec (w.byteAt 3).val) s.pc }) ∧
        ((w.byteAt 3).val ≤ 6 → ¬ (decodeField (w.byteAt 4).val).ValidFor 5 →
          step s = .next { s with status := .faulted (.invalidArgument (.field (w.byteAt 4).val)) s.pc }) ∧
        ((w.byteAt 3).val ≤ 6 → (decodeField (w.byteAt 4).val).ValidFor 5 →
          ((w.byteAt 5).val = 0 ∨ (3 ≤ (w.byteAt 5).val ∧ (w.byteAt 5).val ≤ 7) ∨ 34 ≤ (w.byteAt 5).val) →
          step s = .next
            { s with pc := s.pc + 1, status := .faulted (.unknownOpCode (w.byteAt 5).val) s.pc }))

/-- Decision D8 (R284): a machine whose run status is Faulted has no step. That `step` then repeats the recorded fault is
the model's choice, log entry 1. -/
def Obligations.AFaultedMachineHasNoStep : Prop :=
  ∀ (s : State) (k : FaultKind) (p : Nat), s.status = .faulted k p → step s = .fault (.stopped k p)

/-- R158 (the pc by decision D7, the run status by decision D8, log entry 1): a step that faults writes no register and no
memory word, and records the pc it started from. -/
def Obligations.AFaultingStepWritesNothing : Prop :=
  ∀ s t : State, step s = .next t → t.status ≠ .running →
    t = { s with pc := t.pc, status := t.status } ∧ (t.pc = s.pc ∨ t.pc = s.pc + 1) ∧
      ∃ k, t.status = .faulted k s.pc

/-- R153: the pc is advanced after a successful decode, even if dispatch or Execute then faults, which is decision D7 (the
fault in a next state is log entry 1); no instruction writes the pc; and every step that does
not fault ends with the pc one further. -/
def Obligations.ACompletedStepAdvancesThePcByOne : Prop :=
  (∀ (s t : State) (w : Word 5) (d : Decoded), fetch s = .ok w → decodeFields w = .ok d → step s = .next t →
      t.pc = s.pc + 1) ∧
    (∀ (i : Instr) (s t : State), exec i s = .next t → t.pc = s.pc) ∧
    ∀ s t : State, step s = .next t → t.status = .running → t.pc = s.pc + 1

/-- Every step keeps the state well formed: memory canonical, rJ and the comparison indicator at their reset values (R27,
R31), the pc at most 4000 (R161), and the run status one that the fault table allows (R283). -/
def Obligations.EveryStepKeepsTheStateWellFormed : Prop :=
  ∀ s t : State, StateWf s → step s = .next t → StateWf t

/-- The state after construction is well formed. -/
def Obligations.ResetIsWellFormed : Prop := StateWf State.reset

/-- R36, R310 (the run status by decision D8): what construction leaves. -/
def Obligations.ResetLeavesEverythingZeroed : Prop :=
  let z5 : Word 5 := word5 .plus 0 0 0 0 0
  let z2 : Word 2 := word2 .plus 0 0
  let s := State.reset
  s.rA = z5 ∧ s.rX = z5 ∧ s.rJ = z2 ∧ s.rI1 = z2 ∧ s.rI2 = z2 ∧ s.rI3 = z2 ∧ s.rI4 = z2 ∧ s.rI5 = z2 ∧
    s.rI6 = z2 ∧ s.pc = 0 ∧ s.ov = .off ∧ s.ci = .equal ∧ s.status = .running ∧
    ∀ a : Int, 0 ≤ a → a < 4000 → memRead s.mem a = .ok z5

/-- R161 with decisions D8, D9 and D16: from any running state, stepping on ends in a recorded fault, after at most
4000 - pc completed steps; the fault is recorded at a pc between the starting one and the last one a run can reach. -/
def Obligations.EveryRunEndsInAFault : Prop :=
  ∀ s : State, s.status = .running →
    ∃ (n : Nat) (t : State) (k : FaultKind),
      n ≤ 4000 - s.pc ∧ Sys2Proof.core.run (n + 1) s = .next t ∧ t.status = .faulted k (s.pc + n) ∧
        ∀ m u, m ≤ n → Sys2Proof.core.run m s = .next u → u.status = .running

/-- R30: only ADD and SUB change the overflow bit, and no step sets it Off. -/
def Obligations.TheOverflowBitIsSticky : Prop :=
  (∀ (i : Instr) (s t : State), exec i s = .next t → Claims.isArithmetic i = false → t.ov = s.ov) ∧
    (∀ s t : State, step s = .next t → s.ov = .on → t.ov = .on)

/-- R27, R31: no instruction writes rJ or the comparison indicator. -/
def Obligations.NoInstructionWritesRJOrTheComparisonIndicator : Prop :=
  ∀ (i : Instr) (s t : State), exec i s = .next t → t.rJ = s.rJ ∧ t.ci = s.ci

/-- R65: an instruction outside the Store family writes no memory word; a Store writes at most the one at its effective
address, and no register. -/
def Obligations.OnlyStoresWriteMemory : Prop :=
  ∀ (i : Instr) (s t : State), exec i s = .next t →
    if Claims.isStore i = true then
      t = { s with mem := t.mem, status := t.status } ∧
        ∀ a : Int, a ≠ effectiveAddress i.operands s → memRead t.mem a = memRead s.mem a
    else t.mem = s.mem

/-- R65: what an instruction does depends on one word of memory at most, the one at its effective address. Run with any
other memory that agrees there, it does the same to every register, flag and status, leaves the same word at that address
and changes no other word. -/
def Obligations.AnInstructionReadsOneMemoryWord : Prop :=
  ∀ (i : Instr) (s t : State) (m : Memory),
    m.get (effectiveAddress i.operands s).toNat = s.mem.get (effectiveAddress i.operands s).toNat →
    exec i s = .next t →
    ∃ m', exec i { s with mem := m } = .next { t with mem := m' } ∧
      m'.get (effectiveAddress i.operands s).toNat = t.mem.get (effectiveAddress i.operands s).toNat ∧
      ∀ a, a ≠ (effectiveAddress i.operands s).toNat → m'.get a = m.get a

/-! The instructions: where each completes, with what result, and that nothing else changes. -/

/-- LDA and LDX (R180 to R183). -/
def Obligations.LdaLdxLoadTheField : Prop :=
  ∀ (o : Operands) (s : State), Claims.Reaches o s →
    ∃ c : Word 5, Claims.BytesRight (Claims.operand o s) o.field c ∧
      c.sign = Claims.loadSign (Claims.operand o s) o.field ∧
      exec (.lda o) s = .next { s with rA := c } ∧ exec (.ldx o) s = .next { s with rX := c }

/-- LD1 to LD6 (R180, R181, R184 to R189): the content narrowed to two bytes. -/
def Obligations.LoadIndexLoadsTheNarrowedField : Prop :=
  ∀ (o : Operands) (s : State), Claims.Reaches o s →
    ∃ c : Word 2, Claims.HalfRight (Claims.operand o s) o.field c ∧
      c.sign = Claims.loadSign (Claims.operand o s) o.field ∧
      exec (.ld1 o) s = .next { s with rI1 := c } ∧ exec (.ld2 o) s = .next { s with rI2 := c } ∧
      exec (.ld3 o) s = .next { s with rI3 := c } ∧ exec (.ld4 o) s = .next { s with rI4 := c } ∧
      exec (.ld5 o) s = .next { s with rI5 := c } ∧ exec (.ld6 o) s = .next { s with rI6 := c }

/-- LDAN and LDXN (R200 to R203): the sign is negated only if the field contains it. -/
def Obligations.LdanLdxnNegateTheSignTheFieldHolds : Prop :=
  ∀ (o : Operands) (s : State), Claims.Reaches o s →
    ∃ c : Word 5, Claims.BytesRight (Claims.operand o s) o.field c ∧
      c.sign = Claims.loadNegSign (Claims.operand o s) o.field ∧
      exec (.ldan o) s = .next { s with rA := c } ∧ exec (.ldxn o) s = .next { s with rX := c }

/-- LD1N to LD6N (R200, R201, R204 to R209). -/
def Obligations.LoadIndexNegativeNegatesTheSignTheFieldHolds : Prop :=
  ∀ (o : Operands) (s : State), Claims.Reaches o s →
    ∃ c : Word 2, Claims.HalfRight (Claims.operand o s) o.field c ∧
      c.sign = Claims.loadNegSign (Claims.operand o s) o.field ∧
      exec (.ld1n o) s = .next { s with rI1 := c } ∧ exec (.ld2n o) s = .next { s with rI2 := c } ∧
      exec (.ld3n o) s = .next { s with rI3 := c } ∧ exec (.ld4n o) s = .next { s with rI4 := c } ∧
      exec (.ld5n o) s = .next { s with rI5 := c } ∧ exec (.ld6n o) s = .next { s with rI6 := c }

/-- STA and STX (R220 to R223). -/
def Obligations.StaStxStoreIntoTheFieldOnly : Prop :=
  ∀ (o : Operands) (s : State), Claims.Reaches o s →
    (∃ t, exec (.sta o) s = .next t ∧ Claims.Stored o s.rA s t) ∧
      ∃ t, exec (.stx o) s = .next t ∧ Claims.Stored o s.rX s t

/-- STJ and ST1 to ST6 (R220, R221, R224 to R230), for a field of at most two bytes. -/
def Obligations.HalfWordStoresStoreIntoTheFieldOnly : Prop :=
  ∀ (o : Operands) (s : State), Claims.Reaches o s → Claims.count o.field ≤ 2 →
    (∃ t, exec (.stj o) s = .next t ∧ Claims.Stored o s.rJ s t) ∧
      (∃ t, exec (.st1 o) s = .next t ∧ Claims.Stored o s.rI1 s t) ∧
      (∃ t, exec (.st2 o) s = .next t ∧ Claims.Stored o s.rI2 s t) ∧
      (∃ t, exec (.st3 o) s = .next t ∧ Claims.Stored o s.rI3 s t) ∧
      (∃ t, exec (.st4 o) s = .next t ∧ Claims.Stored o s.rI4 s t) ∧
      (∃ t, exec (.st5 o) s = .next t ∧ Claims.Stored o s.rI5 s t) ∧
      ∃ t, exec (.st6 o) s = .next t ∧ Claims.Stored o s.rI6 s t

/-- STZ (R231). -/
def Obligations.StzStoresZeroIntoTheFieldOnly : Prop :=
  ∀ (o : Operands) (s : State), Claims.Reaches o s →
    ∃ t, exec (.stz o) s = .next t ∧ Claims.Stored o (word5 .plus 0 0 0 0 0) s t

/-- ADD and SUB whose true result is not 0 and fits five bytes (R250 to R254): rA holds it, and nothing else changes. -/
def Obligations.AddSubStoreTheExactResult : Prop :=
  ∀ (o : Operands) (s : State), Claims.Reaches o s →
    ∀ p ∈ [(Instr.add o, Claims.number s.rA o.field + Claims.number (Claims.operand o s) o.field),
        (Instr.sub o, Claims.number s.rA o.field - Claims.number (Claims.operand o s) o.field)],
      p.2 ≠ 0 → p.2.natAbs ≤ 1073741823 →
      ∃ c : Word 5, Claims.digits c 1 5 = p.2.natAbs ∧ c.sign = (if 0 < p.2 then .plus else .minus) ∧
        exec p.1 s = .next { s with rA := c }

/-- ADD and SUB whose true result does not fit (R250 to R253): the overflow bit is set On, the sign is that of the true
result, and the magnitude is wrapped modulo 64^5, which is decision D3 of the spec (log entry 2). -/
def Obligations.AddSubOverflowWrapsAndSetsTheBit : Prop :=
  ∀ (o : Operands) (s : State), Claims.Reaches o s →
    ∀ p ∈ [(Instr.add o, Claims.number s.rA o.field + Claims.number (Claims.operand o s) o.field),
        (Instr.sub o, Claims.number s.rA o.field - Claims.number (Claims.operand o s) o.field)],
      1073741823 < p.2.natAbs →
      ∃ c : Word 5, Claims.digits c 1 5 = p.2.natAbs - 1073741824 ∧
        c.sign = (if 0 < p.2 then .plus else .minus) ∧
        exec p.1 s = .next { s with rA := c, ov := .on }

/-- ADD and SUB whose true result is 0: rA is positive zero, which is decision D4 of the spec (log entry 2). -/
def Obligations.AddSubZeroResultIsPositiveZero : Prop :=
  ∀ (o : Operands) (s : State), Claims.Reaches o s →
    (Claims.number s.rA o.field + Claims.number (Claims.operand o s) o.field = 0 →
      exec (.add o) s = .next { s with rA := word5 .plus 0 0 0 0 0 }) ∧
    (Claims.number s.rA o.field - Claims.number (Claims.operand o s) o.field = 0 →
      exec (.sub o) s = .next { s with rA := word5 .plus 0 0 0 0 0 })

/-- R253, its derived remark: only a field of five bytes can overflow. -/
def Obligations.OnlyFiveByteFieldsOverflow : Prop :=
  ∀ (o : Operands) (i : Instr) (s t : State), i ∈ [Instr.add o, .sub o] → exec i s = .next t →
    s.ov = .off → t.ov = .on → o.field = ⟨0, 5⟩ ∨ o.field = ⟨1, 5⟩

/-- R232 with decisions D5 and D6: a Store from a half-word register through a field of more than two bytes faults with its
count, whatever the address, and writes nothing (log entries 1 and 2). -/
def Obligations.HalfWordStoresOfWideFieldsFault : Prop :=
  ∀ (o : Operands) (s : State) (i : Instr), o.field.ValidFor 5 → 2 < Claims.count o.field →
    i ∈ Claims.halfStores o →
    exec i s = .next (Claims.faulted (.invalidArgument (.count (Claims.count o.field))) s)

/-- R190, R210, R232, R257 (as log entry 1 records a fault): an effective address outside 0..3999 faults with IndexError
for every instruction, and nothing is written. -/
def Obligations.AnAddressOutsideMemoryFaults : Prop :=
  ∀ (i : Instr) (s : State), i.operands.field.ValidFor 5 →
    (effectiveAddress i.operands s < 0 ∨ 4000 ≤ effectiveAddress i.operands s) →
    (i ∈ Claims.halfStores i.operands → Claims.count i.operands.field ≤ 2) →
    exec i s = .next (Claims.faulted (.indexError (effectiveAddress i.operands s)) s)

/-- What STA or STX stores through a field, LDA or LDX loads back through it, whatever the register holds by then: the
rightmost bytes of the stored register, and its sign if the field holds the sign. -/
def Obligations.LoadAfterStoreReturnsTheRegister : Prop :=
  ∀ (o : Operands) (s : State) (v : Word 5), Claims.Reaches o s →
    (∃ t c, exec (.sta o) s = .next t ∧ exec (.lda o) { t with rA := v } = .next { t with rA := c } ∧
      c.sign = Claims.loadSign s.rA o.field ∧
      ∀ i, 1 ≤ i → i ≤ 5 → c.byteAt i = if 5 < i + Claims.count o.field then s.rA.byteAt i else 0) ∧
    ∃ t c, exec (.stx o) s = .next t ∧ exec (.ldx o) { t with rX := v } = .next { t with rX := c } ∧
      c.sign = Claims.loadSign s.rX o.field ∧
      ∀ i, 1 ≤ i → i ≤ 5 → c.byteAt i = if 5 < i + Claims.count o.field then s.rX.byteAt i else 0

/-! The core's boundary. -/

/-- R37, R38: the index register accessors take 1..6 and fail with IndexError elsewhere; a write is seen by the read of
its number and by no other. -/
def Obligations.IndexRegisterAccessorsAreBounded : Prop :=
  ∀ (n : Int) (hw : Word 2) (s : State),
    if 1 ≤ n ∧ n ≤ 6 then
      ∃ t, setIndexRegister n hw s = .ok t ∧
        (∀ k, indexRegister k t = if k = n then .ok hw else indexRegister k s) ∧
        t = { s with rI1 := t.rI1, rI2 := t.rI2, rI3 := t.rI3, rI4 := t.rI4, rI5 := t.rI5, rI6 := t.rI6 }
    else indexRegister n s = .error (.indexError n) ∧ setIndexRegister n hw s = .error (.indexError n)

/-- R37, R38: the memory accessors take 0..3999 and fail with IndexError elsewhere; a write is seen by the read of its
address and by no other, and changes memory alone. The accumulator accessors read and write rA alone. -/
def Obligations.MemoryAndAccumulatorAccessors : Prop :=
  ∀ (a : Int) (w : Word 5) (s : State),
    (if 0 ≤ a ∧ a < 4000 then
      ∃ t, setMemoryCell a w s = .ok t ∧
        (∀ b, memoryCell b t = if b = a then .ok w else memoryCell b s) ∧ t = { s with mem := t.mem }
    else memoryCell a s = .error (.indexError a) ∧ setMemoryCell a w s = .error (.indexError a)) ∧
    accumulator (setAccumulator w s) = w ∧ setAccumulator w s = { s with rA := w }

/-- R312, R313: a program of 1 to 4000 valid words is loaded at addresses 0, 1, 2, … of a machine that is otherwise as
constructed; a longer one fails with IndexError(4000), and an empty one before the core is called. -/
def Obligations.TheLoaderPlacesWordsFromAddressZero : Prop :=
  boot [] = (State.reset, some .noSource) ∧
    ∀ ws : List (Word 5), ws ≠ [] →
      if ws.length ≤ 4000 then
        ∃ t, boot (ws.map textOf) = (t, none) ∧ t = { State.reset with mem := t.mem } ∧
          ∀ k : Nat, k < 4000 → memoryCell k t = .ok (ws.getD k (word5 .plus 0 0 0 0 0))
      else (boot (ws.map textOf)).2 = some (.raised (.indexError 4000))

/-- R314: a word is written as its sign character and one character for each byte, and a sequence of words as these texts
one after the other. -/
def Obligations.AWordIsWrittenAsSignAndBytes : Prop :=
  ∀ (code : ByteCharCode) (n : Nat) (w : Word n) (ws : List (Word n)),
    (writeWord code w).length = n + 1 ∧
      (writeWord code w).head? = some (if w.sign = .minus then '-' else '+') ∧
      (∀ i, 1 ≤ i → i ≤ n → (writeWord code w)[i]? = some (code.char (w.byteAt i))) ∧
      writeWords code (w :: ws) = writeWord code w ++ writeWords code ws ∧
      writeWords code ([] : List (Word n)) = []

/-- The text reader and the loader (R315, R23, R280): reading mirrors writing; a character that is no sign gives the Invalid
sign, a byte missing at the end the sentinel, and such a word is not valid and is rejected by the loader. How the loader
rejects it is the model's choice: it stops there with the state as it stands (log entry 7), and reports InvalidWord with
that word, also for a bad sign (log entries 11 and 14). -/
def Obligations.ReadingMirrorsWritingAndMarksFailures : Prop :=
  ∀ (code : ByteCharCode) (n : Nat),
    (∀ (w : Word n) (rest : List Char), readWord code n (writeWord code w ++ rest) = (textOf w, rest) ∧
      textValid (textOf w) ∧ liveWord (textOf w) = some w) ∧
    (∀ (c : Char) (rest : List Char), c ≠ '+' → c ≠ '-' →
      (readWord code n (c :: rest)).1.sign = .invalid ∧ ¬ textValid (readWord code n (c :: rest)).1) ∧
    (∀ (c : Char) (rest : List Char), c = '+' ∨ c = '-' → rest.length < n →
      (∀ j (hj : j < n), rest.length ≤ j → (readWord code n (c :: rest)).1.bytes[j] = .sentinel) ∧
        ¬ textValid (readWord code n (c :: rest)).1) ∧
    ∀ (a : Nat) (w : TextWord 5) (ws : List (TextWord 5)) (s : State), ¬ textValid w →
      loadWordsFrom a (w :: ws) s = (s, some (.raised (.invalidWord w)))

/-- Reading past the end of the input (R125): from an empty input the sign is Invalid, every byte is the sentinel, nothing
is left, and the word is not valid. -/
def Obligations.AnEmptyInputReadsAsAnInvalidWord : Prop :=
  ∀ (code : ByteCharCode) (n : Nat),
    (readWord code n []).2 = [] ∧ (readWord code n []).1.sign = .invalid ∧
      (∀ j (hj : j < n), (readWord code n []).1.bytes[j] = .sentinel) ∧ ¬ textValid (readWord code n []).1
end

