-- ==== Sys2Proof/Laws/Word.lean ====
section
/-! SUPPORT. What is read back from a word that was built, and when two words are equal. -/

namespace Sys2Proof

@[simp] theorem Sign.neg_neg (s : Sign) : s.neg.neg = s := by cases s <;> rfl

@[simp] theorem Word.build_sign (n : Nat) (s : Sign) (f : Nat → Byte) : (Word.build n s f).sign = s := rfl

theorem Word.byteAt_build {n i : Nat} (s : Sign) (f : Nat → Byte) (h1 : 1 ≤ i) (hn : i ≤ n) :
    (Word.build n s f).byteAt i = f i := by
  simp [Word.byteAt, Word.build, h1, hn]

theorem Word.byteAt_out {n i : Nat} (w : Word n) (h : i = 0 ∨ n < i) : w.byteAt i = 0 := by
  have : ¬ (1 ≤ i ∧ i ≤ n) := by omega
  simp [Word.byteAt, this]

@[simp] theorem Word.zero_sign (n : Nat) : (Word.zero n).sign = .plus := rfl

@[simp] theorem Word.zero_byteAt (n i : Nat) : (Word.zero n).byteAt i = 0 := by
  by_cases h : 1 ≤ i ∧ i ≤ n
  · exact Word.byteAt_build _ _ h.1 h.2
  · exact Word.byteAt_out _ (by omega)

@[simp] theorem Word.withSign_sign {n : Nat} (w : Word n) (s : Sign) : (w.withSign s).sign = s := rfl

@[simp] theorem Word.withSign_byteAt {n : Nat} (w : Word n) (s : Sign) (i : Nat) :
    (w.withSign s).byteAt i = w.byteAt i := rfl

/-- Two words are equal if their signs and all their bytes are. -/
theorem Word.ext_byteAt {n : Nat} {w v : Word n} (hs : w.sign = v.sign)
    (hb : ∀ i, 1 ≤ i → i ≤ n → w.byteAt i = v.byteAt i) : w = v := by
  obtain ⟨s, b⟩ := w
  obtain ⟨s', b'⟩ := v
  have hbytes : b = b' := by
    ext k hk
    have := hb (k + 1) (by omega) (by omega)
    simpa [Word.byteAt, Nat.succ_le_of_lt hk] using congrArg Fin.val this
  cases hbytes
  cases hs
  rfl

/-- A word is built from its own sign and bytes. -/
theorem Word.build_eta {n : Nat} (w : Word n) : Word.build n w.sign w.byteAt = w :=
  Word.ext_byteAt rfl fun _ h1 hn => Word.byteAt_build _ _ h1 hn

end Sys2Proof
end

