-- ==== Sys2Proof/Laws/Datapath.lean ====
section
/-! SUPPORT. One lemma per datapath primitive: what it answers. -/

namespace Sys2Proof

/-- A valid field names `right + 1 - firstByte` bytes (R88). -/
theorem FieldSpec.byteCount_eq {f : FieldSpec} {n : Nat} (h : f.ValidFor n) :
    f.byteCount = f.right + 1 - f.firstByte := by
  obtain ⟨h1, _⟩ := h
  unfold FieldSpec.byteCount FieldSpec.size FieldSpec.firstByte
  split <;> omega

/-- The bytes of a valid field end at its right part (R88). -/
theorem FieldSpec.firstByte_add_byteCount {f : FieldSpec} {n : Nat} (h : f.ValidFor n) :
    f.firstByte + f.byteCount = f.right + 1 := by
  have := FieldSpec.byteCount_eq h
  have : f.firstByte ≤ f.right + 1 := by unfold FieldSpec.firstByte; have := h.1; omega
  omega

theorem FieldSpec.one_le_firstByte (f : FieldSpec) : 1 ≤ f.firstByte := Nat.le_max_right ..

/-- A valid field names at most N bytes. -/
theorem FieldSpec.byteCount_le {f : FieldSpec} {n : Nat} (h : f.ValidFor n) : f.byteCount ≤ n := by
  have := FieldSpec.firstByte_add_byteCount h
  have := f.one_le_firstByte
  have := h.2
  omega

namespace Machine

variable {n : Nat}

@[simp] theorem negateWord_sign (w : Word n) : (negateWord w).sign = w.sign.neg := rfl

@[simp] theorem negateWord_byteAt (w : Word n) (i : Nat) : (negateWord w).byteAt i = w.byteAt i := rfl

@[simp] theorem narrow_sign (m : Nat) (w : Word n) : (narrow m w).sign = w.sign := rfl

theorem narrow_byteAt {m j : Nat} (w : Word n) (h1 : 1 ≤ j) (hj : j ≤ m) :
    (narrow m w).byteAt j = w.byteAt (n - m + j) := Word.byteAt_build _ _ h1 hj

@[simp] theorem widen_sign (m : Nat) (w : Word n) : (widen m w).sign = w.sign := rfl

theorem widen_byteAt {m j : Nat} (w : Word n) (h1 : 1 ≤ j) (hj : j ≤ m) :
    (widen m w).byteAt j = if j ≤ m - n then 0 else w.byteAt (j - (m - n)) := Word.byteAt_build _ _ h1 hj

theorem toInt_ok {w : Word n} {first last : Nat} (h1 : first ≤ last) (h2 : last ≤ n) :
    toInt w first last = .ok (spanValue w first last) := by
  have : (0 : Int) ≤ first ∧ (first : Int) ≤ last ∧ (last : Int) ≤ n := by omega
  simp [toInt, this]

/-- `toInt` on a valid field answers the value of its positions. -/
theorem toInt_field {w : Word n} {f : FieldSpec} (h : f.ValidFor n) :
    toInt w f.left f.right = .ok (spanValue w f.left f.right) := toInt_ok h.1 h.2

/-- The number of `k` bytes is below 64^k. -/
theorem spanMag_lt (w : Word n) (lo k : Nat) : spanMag w lo k < 64 ^ k := by
  induction k with
  | zero => simp [spanMag]
  | succ k ih =>
    have := (w.byteAt (lo + k)).isLt
    rw [spanMag, pow_succ]
    omega

/-- The magnitude of a span of `last + 1 - max first 1` bytes. -/
theorem spanValue_natAbs (w : Word n) (first last : Nat) :
    (spanValue w first last).natAbs = spanMag w (max first 1) (last + 1 - max first 1) := by
  unfold spanValue
  dsimp only
  split <;> simp

theorem fieldAlignedRight_ok {w : Word n} {f : FieldSpec} (h : f.ValidFor n) :
    fieldAlignedRight w f = .ok (.build n (fieldSign w f) fun i =>
      if n - f.byteCount < i then w.byteAt (f.firstByte + (i - (n - f.byteCount + 1))) else 0) := if_pos h

/-- What `fieldAlignedRight` answers for a valid field: the sign, the field's bytes at the right edge, zeros before. -/
theorem fieldAlignedRight_spec {w c : Word n} {f : FieldSpec} (h : fieldAlignedRight w f = .ok c) :
    f.ValidFor n ∧ c.sign = fieldSign w f ∧
      (∀ j, j < f.byteCount → c.byteAt (n - f.byteCount + 1 + j) = w.byteAt (f.firstByte + j)) ∧
      ∀ i, i ≤ n - f.byteCount → c.byteAt i = 0 := by
  unfold fieldAlignedRight at h
  split at h
  · next hv =>
    cases h
    have hk := FieldSpec.byteCount_le hv
    refine ⟨hv, rfl, fun j hj => ?_, fun i hi => ?_⟩
    · rw [Word.byteAt_build _ _ (by omega) (by omega), if_pos (by omega)]
      congr 2
      omega
    · by_cases h0 : i = 0
      · exact Word.byteAt_out _ (.inl h0)
      · rw [Word.byteAt_build _ _ (by omega) (by omega), if_neg (by omega)]
  · cases h

theorem copyRange_ok {self source : Word n} {f : FieldSpec} (h : f.ValidFor n) :
    copyRange self source f.left f.right =
      .ok (.build n (if f.left = 0 then source.sign else self.sign) fun i =>
        if f.firstByte ≤ i ∧ i ≤ f.right then source.byteAt i else self.byteAt i) := by
  obtain ⟨h1, h2⟩ := h
  have hc : ¬ ((f.left : Int) > f.right ∨ (f.left : Int) < 0 ∨ (f.right : Int) > n) := by omega
  unfold copyRange
  rw [if_neg hc]
  have hz : ((f.left : Int) = 0) = (f.left = 0) := by simp
  have hm : ∀ i : Nat, (max (f.left : Int) 1 ≤ i ∧ (i : Int) ≤ f.right) = (f.firstByte ≤ i ∧ i ≤ f.right) := fun i => by
    unfold FieldSpec.firstByte
    apply propext
    omega
  simp only [hz, hm]

/-- What `copyRange` answers for a valid field: its positions from `source`, all others kept. -/
theorem copyRange_spec {self source r : Word n} {f : FieldSpec} (hv : f.ValidFor n)
    (h : copyRange self source f.left f.right = .ok r) :
    r.sign = (if f.left = 0 then source.sign else self.sign) ∧
      ∀ i, r.byteAt i = if f.firstByte ≤ i ∧ i ≤ f.right then source.byteAt i else self.byteAt i := by
  rw [copyRange_ok hv] at h
  cases h
  refine ⟨rfl, fun i => ?_⟩
  by_cases hi : 1 ≤ i ∧ i ≤ n
  · exact Word.byteAt_build _ _ hi.1 hi.2
  · rw [Word.byteAt_out _ (by omega), Word.byteAt_out source (by omega), Word.byteAt_out self (by omega), ite_self]

theorem leftShift_ok {w : Word n} {k : Nat} :
    leftShift w k = .ok (.build n w.sign fun i => if i + k ≤ n then w.byteAt (i + k) else 0) := by
  simp [leftShift]

@[simp] theorem ofMagnitude_sign (s : Sign) (m : Nat) : (ofMagnitude n s m).sign = s := rfl

theorem ofMagnitude_byteAt {i : Nat} (s : Sign) (m : Nat) (h1 : 1 ≤ i) (hi : i ≤ n) :
    ((ofMagnitude n s m).byteAt i).val = m / 64 ^ (n - i) % 64 := by
  rw [ofMagnitude, Word.byteAt_build _ _ h1 hi]
  rfl

end Machine

end Sys2Proof
end

