-- ==== Sys2Proof/Laws/Memory.lean ====
section
/-! SUPPORT. Memory: read after write, the canonical form, and what a read or a write can answer. -/

namespace Sys2Proof.Machine

theorem Memory.get_insert (m : Memory) (a b : Nat) (w : Word 5) (h : ∀ c ∈ m, c.1 ≠ a) :
    (Memory.insert a w m).get b = if b = a then w else m.get b := by
  induction m with
  | nil => simp [Memory.insert, Memory.get]
  | cons c m ih =>
    obtain ⟨k, v⟩ := c
    have hk : k ≠ a := h (k, v) (by simp)
    by_cases hlt : a < k
    · simp [Memory.insert, Memory.get, hlt]
    · simp only [Memory.insert, hlt, if_false, Memory.get]
      rw [ih fun c hc => h c (by simp [hc])]
      by_cases hbk : b = k
      · subst hbk; simp [hk]
      · simp [hbk]

theorem Memory.erase_cons (k a : Nat) (v : Word 5) (m : Memory) :
    Memory.erase ((k, v) :: m) a = if k = a then m.erase a else (k, v) :: m.erase a := by
  by_cases h : k = a <;> simp [Memory.erase, h]

theorem Memory.get_erase (m : Memory) (a b : Nat) :
    (m.erase a).get b = if b = a then Word.zero 5 else m.get b := by
  induction m with
  | nil => simp [Memory.erase, Memory.get]
  | cons c m ih =>
    obtain ⟨k, v⟩ := c
    rw [Memory.erase_cons]
    by_cases hk : k = a
    · subst hk
      rw [if_pos rfl, ih]
      by_cases hb : b = k <;> simp [Memory.get, hb]
    · rw [if_neg hk, Memory.get, ih]
      by_cases hb : b = k
      · subst hb; simp [hk, Memory.get]
      · simp [hb, Memory.get]

theorem Memory.mem_erase_ne {m : Memory} {a : Nat} {c : Nat × Word 5} (h : c ∈ m.erase a) : c.1 ≠ a := by
  simpa using (List.mem_filter.1 h).2

/-- Read after write, of every memory: the word written at its own address, every other word as before. -/
@[simp] theorem Memory.get_set (m : Memory) (a b : Nat) (w : Word 5) :
    (m.set a w).get b = if b = a then w else m.get b := by
  unfold Memory.set
  split
  · next h => rw [Memory.get_erase, h]
  · rw [Memory.get_insert _ _ _ _ fun c hc => Memory.mem_erase_ne hc, Memory.get_erase]
    split <;> rfl

theorem Memory.mem_insert {m : Memory} {a : Nat} {w : Word 5} {c : Nat × Word 5} :
    c ∈ Memory.insert a w m ↔ c = (a, w) ∨ c ∈ m := by
  induction m with
  | nil => simp [Memory.insert]
  | cons d m ih =>
    obtain ⟨k, v⟩ := d
    unfold Memory.insert
    split
    · simp
    · simp only [List.mem_cons, ih]; tauto

theorem Memory.insert_sorted {m : Memory} {a : Nat} {w : Word 5} (hs : m.Pairwise fun c d => c.1 < d.1)
    (h : ∀ c ∈ m, c.1 ≠ a) : (Memory.insert a w m).Pairwise fun c d => c.1 < d.1 := by
  induction m with
  | nil => simp [Memory.insert]
  | cons d m ih =>
    obtain ⟨k, v⟩ := d
    have hk : k ≠ a := h (k, v) (by simp)
    obtain ⟨hd, hm⟩ := List.pairwise_cons.1 hs
    unfold Memory.insert
    split
    · next hlt =>
      refine List.pairwise_cons.2 ⟨fun c hc => ?_, hs⟩
      rcases List.mem_cons.1 hc with rfl | hc
      · exact hlt
      · exact Nat.lt_trans hlt (hd c hc)
    · next hlt =>
      refine List.pairwise_cons.2 ⟨fun c hc => ?_, ih hm fun c hc => h c (by simp [hc])⟩
      rcases Memory.mem_insert.1 hc with rfl | hc
      · show k < a; omega
      · exact hd c hc

theorem Memory.erase_wf {m : Memory} (a : Nat) (h : m.wf) : (m.erase a).wf :=
  ⟨h.1.filter _, fun c hc => h.2 c (List.mem_filter.1 hc).1⟩

theorem Memory.nil_wf : Memory.wf [] := ⟨List.Pairwise.nil, by simp⟩

/-- A write at an address that exists keeps the canonical form. -/
theorem Memory.set_wf {m : Memory} {a : Nat} (w : Word 5) (ha : a < Config.memSize) (h : m.wf) : (m.set a w).wf := by
  unfold Memory.set
  split
  · exact Memory.erase_wf a h
  · next hw =>
    have he := Memory.erase_wf a h
    refine ⟨Memory.insert_sorted he.1 fun c hc => Memory.mem_erase_ne hc, fun c hc => ?_⟩
    rcases Memory.mem_insert.1 hc with rfl | hc
    · exact ⟨ha, hw⟩
    · exact he.2 c hc

theorem memRead_ok {m : Memory} {a : Int} (h : addressExists a) : memRead m a = .ok (m.get a.toNat) := if_pos h

theorem memRead_error {m : Memory} {a : Int} (h : ¬ addressExists a) : memRead m a = .error (.indexError a) := if_neg h

/-- All that `memRead` can do. -/
theorem memRead_cases (m : Memory) (a : Int) :
    (addressExists a ∧ memRead m a = .ok (m.get a.toNat)) ∨
      (¬ addressExists a ∧ memRead m a = .error (.indexError a)) := by
  by_cases h : addressExists a
  · exact .inl ⟨h, memRead_ok h⟩
  · exact .inr ⟨h, memRead_error h⟩

theorem memWrite_ok {m : Memory} {a : Int} {w : Word 5} (h : addressExists a) :
    memWrite m a w = .ok (m.set a.toNat w) := if_pos h

theorem memWrite_error {m : Memory} {a : Int} {w : Word 5} (h : ¬ addressExists a) :
    memWrite m a w = .error (.indexError a) := if_neg h

/-- If `memWrite` answers a memory, the address exists and the memory is the one with that word replaced. -/
theorem memWrite_eq_ok {m m' : Memory} {a : Int} {w : Word 5} (h : memWrite m a w = .ok m') :
    addressExists a ∧ m' = m.set a.toNat w := by
  unfold memWrite at h
  split at h
  · next ha => exact ⟨ha, by cases h; rfl⟩
  · cases h

/-- `memWrite` keeps the canonical form. -/
theorem memWrite_wf {m m' : Memory} {a : Int} {w : Word 5} (hm : m.wf) (h : memWrite m a w = .ok m') : m'.wf := by
  obtain ⟨ha, rfl⟩ := memWrite_eq_ok h
  exact Memory.set_wf w (by have := ha.1; have := ha.2; omega) hm

end Sys2Proof.Machine
end

