-- ==== Sys2Proof/Laws/State.lean ====
section
/-! SUPPORT. What each field of the state reads after each update. -/

namespace Sys2Proof.Machine

variable (s : State)

@[simp] theorem State.setA_rA (w : Word 5) : (s.setA w).rA = w := rfl
@[simp] theorem State.setA_rX (w : Word 5) : (s.setA w).rX = s.rX := rfl
@[simp] theorem State.setA_rJ (w : Word 5) : (s.setA w).rJ = s.rJ := rfl
@[simp] theorem State.setA_rI1 (w : Word 5) : (s.setA w).rI1 = s.rI1 := rfl
@[simp] theorem State.setA_rI2 (w : Word 5) : (s.setA w).rI2 = s.rI2 := rfl
@[simp] theorem State.setA_rI3 (w : Word 5) : (s.setA w).rI3 = s.rI3 := rfl
@[simp] theorem State.setA_rI4 (w : Word 5) : (s.setA w).rI4 = s.rI4 := rfl
@[simp] theorem State.setA_rI5 (w : Word 5) : (s.setA w).rI5 = s.rI5 := rfl
@[simp] theorem State.setA_rI6 (w : Word 5) : (s.setA w).rI6 = s.rI6 := rfl
@[simp] theorem State.setA_pc (w : Word 5) : (s.setA w).pc = s.pc := rfl
@[simp] theorem State.setA_ov (w : Word 5) : (s.setA w).ov = s.ov := rfl
@[simp] theorem State.setA_ci (w : Word 5) : (s.setA w).ci = s.ci := rfl
@[simp] theorem State.setA_mem (w : Word 5) : (s.setA w).mem = s.mem := rfl
@[simp] theorem State.setA_status (w : Word 5) : (s.setA w).status = s.status := rfl

@[simp] theorem State.setX_rA (w : Word 5) : (s.setX w).rA = s.rA := rfl
@[simp] theorem State.setX_rX (w : Word 5) : (s.setX w).rX = w := rfl
@[simp] theorem State.setX_rJ (w : Word 5) : (s.setX w).rJ = s.rJ := rfl
@[simp] theorem State.setX_rI1 (w : Word 5) : (s.setX w).rI1 = s.rI1 := rfl
@[simp] theorem State.setX_rI2 (w : Word 5) : (s.setX w).rI2 = s.rI2 := rfl
@[simp] theorem State.setX_rI3 (w : Word 5) : (s.setX w).rI3 = s.rI3 := rfl
@[simp] theorem State.setX_rI4 (w : Word 5) : (s.setX w).rI4 = s.rI4 := rfl
@[simp] theorem State.setX_rI5 (w : Word 5) : (s.setX w).rI5 = s.rI5 := rfl
@[simp] theorem State.setX_rI6 (w : Word 5) : (s.setX w).rI6 = s.rI6 := rfl
@[simp] theorem State.setX_pc (w : Word 5) : (s.setX w).pc = s.pc := rfl
@[simp] theorem State.setX_ov (w : Word 5) : (s.setX w).ov = s.ov := rfl
@[simp] theorem State.setX_ci (w : Word 5) : (s.setX w).ci = s.ci := rfl
@[simp] theorem State.setX_mem (w : Word 5) : (s.setX w).mem = s.mem := rfl
@[simp] theorem State.setX_status (w : Word 5) : (s.setX w).status = s.status := rfl

@[simp] theorem State.setMem_rA (m : Memory) : (s.setMem m).rA = s.rA := rfl
@[simp] theorem State.setMem_rX (m : Memory) : (s.setMem m).rX = s.rX := rfl
@[simp] theorem State.setMem_rJ (m : Memory) : (s.setMem m).rJ = s.rJ := rfl
@[simp] theorem State.setMem_rI1 (m : Memory) : (s.setMem m).rI1 = s.rI1 := rfl
@[simp] theorem State.setMem_rI2 (m : Memory) : (s.setMem m).rI2 = s.rI2 := rfl
@[simp] theorem State.setMem_rI3 (m : Memory) : (s.setMem m).rI3 = s.rI3 := rfl
@[simp] theorem State.setMem_rI4 (m : Memory) : (s.setMem m).rI4 = s.rI4 := rfl
@[simp] theorem State.setMem_rI5 (m : Memory) : (s.setMem m).rI5 = s.rI5 := rfl
@[simp] theorem State.setMem_rI6 (m : Memory) : (s.setMem m).rI6 = s.rI6 := rfl
@[simp] theorem State.setMem_pc (m : Memory) : (s.setMem m).pc = s.pc := rfl
@[simp] theorem State.setMem_ov (m : Memory) : (s.setMem m).ov = s.ov := rfl
@[simp] theorem State.setMem_ci (m : Memory) : (s.setMem m).ci = s.ci := rfl
@[simp] theorem State.setMem_mem (m : Memory) : (s.setMem m).mem = m := rfl
@[simp] theorem State.setMem_status (m : Memory) : (s.setMem m).status = s.status := rfl

@[simp] theorem State.advance_rA : s.advance.rA = s.rA := rfl
@[simp] theorem State.advance_rX : s.advance.rX = s.rX := rfl
@[simp] theorem State.advance_rJ : s.advance.rJ = s.rJ := rfl
@[simp] theorem State.advance_rI1 : s.advance.rI1 = s.rI1 := rfl
@[simp] theorem State.advance_rI2 : s.advance.rI2 = s.rI2 := rfl
@[simp] theorem State.advance_rI3 : s.advance.rI3 = s.rI3 := rfl
@[simp] theorem State.advance_rI4 : s.advance.rI4 = s.rI4 := rfl
@[simp] theorem State.advance_rI5 : s.advance.rI5 = s.rI5 := rfl
@[simp] theorem State.advance_rI6 : s.advance.rI6 = s.rI6 := rfl
@[simp] theorem State.advance_pc : s.advance.pc = s.pc + 1 := rfl
@[simp] theorem State.advance_ov : s.advance.ov = s.ov := rfl
@[simp] theorem State.advance_ci : s.advance.ci = s.ci := rfl
@[simp] theorem State.advance_mem : s.advance.mem = s.mem := rfl
@[simp] theorem State.advance_status : s.advance.status = s.status := rfl

@[simp] theorem raiseFault_rA (k : FaultKind) (p : Nat) : (raiseFault k p s).rA = s.rA := rfl
@[simp] theorem raiseFault_rX (k : FaultKind) (p : Nat) : (raiseFault k p s).rX = s.rX := rfl
@[simp] theorem raiseFault_rJ (k : FaultKind) (p : Nat) : (raiseFault k p s).rJ = s.rJ := rfl
@[simp] theorem raiseFault_rI1 (k : FaultKind) (p : Nat) : (raiseFault k p s).rI1 = s.rI1 := rfl
@[simp] theorem raiseFault_rI2 (k : FaultKind) (p : Nat) : (raiseFault k p s).rI2 = s.rI2 := rfl
@[simp] theorem raiseFault_rI3 (k : FaultKind) (p : Nat) : (raiseFault k p s).rI3 = s.rI3 := rfl
@[simp] theorem raiseFault_rI4 (k : FaultKind) (p : Nat) : (raiseFault k p s).rI4 = s.rI4 := rfl
@[simp] theorem raiseFault_rI5 (k : FaultKind) (p : Nat) : (raiseFault k p s).rI5 = s.rI5 := rfl
@[simp] theorem raiseFault_rI6 (k : FaultKind) (p : Nat) : (raiseFault k p s).rI6 = s.rI6 := rfl
@[simp] theorem raiseFault_pc (k : FaultKind) (p : Nat) : (raiseFault k p s).pc = s.pc := rfl
@[simp] theorem raiseFault_ov (k : FaultKind) (p : Nat) : (raiseFault k p s).ov = s.ov := rfl
@[simp] theorem raiseFault_ci (k : FaultKind) (p : Nat) : (raiseFault k p s).ci = s.ci := rfl
@[simp] theorem raiseFault_mem (k : FaultKind) (p : Nat) : (raiseFault k p s).mem = s.mem := rfl
@[simp] theorem raiseFault_status (k : FaultKind) (p : Nat) : (raiseFault k p s).status = .faulted k p := rfl

@[simp] theorem State.setResult_rA (p : Params) (t : Int) : (s.setResult p t).rA = fromInt p t (storedMagnitude p t) s.rA.sign := rfl
@[simp] theorem State.setResult_rX (p : Params) (t : Int) : (s.setResult p t).rX = s.rX := rfl
@[simp] theorem State.setResult_rJ (p : Params) (t : Int) : (s.setResult p t).rJ = s.rJ := rfl
@[simp] theorem State.setResult_rI1 (p : Params) (t : Int) : (s.setResult p t).rI1 = s.rI1 := rfl
@[simp] theorem State.setResult_rI2 (p : Params) (t : Int) : (s.setResult p t).rI2 = s.rI2 := rfl
@[simp] theorem State.setResult_rI3 (p : Params) (t : Int) : (s.setResult p t).rI3 = s.rI3 := rfl
@[simp] theorem State.setResult_rI4 (p : Params) (t : Int) : (s.setResult p t).rI4 = s.rI4 := rfl
@[simp] theorem State.setResult_rI5 (p : Params) (t : Int) : (s.setResult p t).rI5 = s.rI5 := rfl
@[simp] theorem State.setResult_rI6 (p : Params) (t : Int) : (s.setResult p t).rI6 = s.rI6 := rfl
@[simp] theorem State.setResult_pc (p : Params) (t : Int) : (s.setResult p t).pc = s.pc := rfl
@[simp] theorem State.setResult_ov (p : Params) (t : Int) : (s.setResult p t).ov = overflowAfter t s.ov := rfl
@[simp] theorem State.setResult_ci (p : Params) (t : Int) : (s.setResult p t).ci = s.ci := rfl
@[simp] theorem State.setResult_mem (p : Params) (t : Int) : (s.setResult p t).mem = s.mem := rfl
@[simp] theorem State.setResult_status (p : Params) (t : Int) : (s.setResult p t).status = s.status := rfl

@[simp] theorem State.setIndex_rA (i : IndexReg) (w : Word 2) : (s.setIndex i w).rA = s.rA := by cases i <;> rfl
@[simp] theorem State.setIndex_rX (i : IndexReg) (w : Word 2) : (s.setIndex i w).rX = s.rX := by cases i <;> rfl
@[simp] theorem State.setIndex_rJ (i : IndexReg) (w : Word 2) : (s.setIndex i w).rJ = s.rJ := by cases i <;> rfl
@[simp] theorem State.setIndex_pc (i : IndexReg) (w : Word 2) : (s.setIndex i w).pc = s.pc := by cases i <;> rfl
@[simp] theorem State.setIndex_ov (i : IndexReg) (w : Word 2) : (s.setIndex i w).ov = s.ov := by cases i <;> rfl
@[simp] theorem State.setIndex_ci (i : IndexReg) (w : Word 2) : (s.setIndex i w).ci = s.ci := by cases i <;> rfl
@[simp] theorem State.setIndex_mem (i : IndexReg) (w : Word 2) : (s.setIndex i w).mem = s.mem := by cases i <;> rfl
@[simp] theorem State.setIndex_status (i : IndexReg) (w : Word 2) : (s.setIndex i w).status = s.status := by cases i <;> rfl

/-- Index registers are six registers: a write of one leaves the other five. -/
@[simp] theorem State.setIndex_index (i j : IndexReg) (w : Word 2) :
    (s.setIndex i w).index j = if j = i then w else s.index j := by
  cases i <;> cases j <;> rfl

@[simp] theorem State.setA_index (w : Word 5) (i : IndexReg) : (s.setA w).index i = s.index i := by cases i <;> rfl
@[simp] theorem State.setX_index (w : Word 5) (i : IndexReg) : (s.setX w).index i = s.index i := by cases i <;> rfl
@[simp] theorem State.setMem_index (m : Memory) (i : IndexReg) : (s.setMem m).index i = s.index i := by cases i <;> rfl
@[simp] theorem State.advance_index (i : IndexReg) : s.advance.index i = s.index i := by cases i <;> rfl
@[simp] theorem raiseFault_index (k : FaultKind) (p : Nat) (i : IndexReg) : (raiseFault k p s).index i = s.index i := by
  cases i <;> rfl
@[simp] theorem State.setResult_index (p : Params) (t : Int) (i : IndexReg) :
    (s.setResult p t).index i = s.index i := by cases i <;> rfl

@[simp] theorem State.setLoaded_rJ (r : LoadTarget) (c : Word 5) : (s.setLoaded r c).rJ = s.rJ := by cases r <;> simp [State.setLoaded]
@[simp] theorem State.setLoaded_pc (r : LoadTarget) (c : Word 5) : (s.setLoaded r c).pc = s.pc := by cases r <;> simp [State.setLoaded]
@[simp] theorem State.setLoaded_ov (r : LoadTarget) (c : Word 5) : (s.setLoaded r c).ov = s.ov := by cases r <;> simp [State.setLoaded]
@[simp] theorem State.setLoaded_ci (r : LoadTarget) (c : Word 5) : (s.setLoaded r c).ci = s.ci := by cases r <;> simp [State.setLoaded]
@[simp] theorem State.setLoaded_mem (r : LoadTarget) (c : Word 5) : (s.setLoaded r c).mem = s.mem := by cases r <;> simp [State.setLoaded]
@[simp] theorem State.setLoaded_status (r : LoadTarget) (c : Word 5) : (s.setLoaded r c).status = s.status := by cases r <;> simp [State.setLoaded]

/-- Two states that agree in every field are equal. -/
theorem State.ext_fields {s t : State} (hA : s.rA = t.rA) (hX : s.rX = t.rX) (hJ : s.rJ = t.rJ)
    (hI : ∀ i, s.index i = t.index i) (hpc : s.pc = t.pc) (hov : s.ov = t.ov) (hci : s.ci = t.ci)
    (hmem : s.mem = t.mem) (hst : s.status = t.status) : s = t := by
  cases s
  cases t
  have h1 := hI .i1
  have h2 := hI .i2
  have h3 := hI .i3
  have h4 := hI .i4
  have h5 := hI .i5
  have h6 := hI .i6
  simp_all [State.index]

end Sys2Proof.Machine
end

