-- ==== Sys2Proof/Laws/Ops.lean ====
section
/-! SUPPORT. What each shared operation can answer: its equation where it succeeds, and the one inversion lemma that
says everything it can do. -/

namespace Sys2Proof.Machine

/-! Bind of the fault type. -/

@[simp] theorem bind_ok {α β : Type} (a : α) (f : α → Except FaultKind β) : ((Except.ok a) >>= f) = f a := rfl

@[simp] theorem bind_error {α β : Type} (k : FaultKind) (f : α → Except FaultKind β) :
    ((Except.error k) >>= f) = .error k := rfl

/-- Both parts of a computation that answers. -/
theorem bind_eq_ok {α β : Type} {x : Except FaultKind α} {f : α → Except FaultKind β} {b : β}
    (h : (x >>= f) = .ok b) : ∃ a, x = .ok a ∧ f a = .ok b := by
  cases x with
  | error => cases h
  | ok a => exact ⟨a, rfl, h⟩

/-! Completion. -/

@[simp] theorem complete_ok (s t : State) : complete s (.ok t) = .next t := rfl

@[simp] theorem complete_error (s : State) (k : FaultKind) :
    complete s (.error k) = .next (raiseFault k (s.pc - 1) s) := rfl

/-- A handler's end: its own next state, or the state that records the fault. -/
theorem complete_eq_next {s t : State} {x : Except FaultKind State} (h : complete s x = .next t) :
    x = .ok t ∨ ∃ k, x = .error k ∧ t = raiseFault k (s.pc - 1) s := by
  cases x with
  | error k => exact .inr ⟨k, rfl, by cases h; rfl⟩
  | ok u => exact .inl (by cases h; rfl)

/-! Load and Load-Negative. -/

/-- The content a Load extracts from the word `w` through a field (R180). -/
abbrev extracted (w : Word 5) (f : FieldSpec) : Word 5 :=
  .build 5 (fieldSign w f) fun i =>
    if 5 - f.byteCount < i then w.byteAt (f.firstByte + (i - (5 - f.byteCount + 1))) else 0

theorem loadContent_ok {o : Operands} {s : State} (ha : addressExists (effectiveAddress o s))
    (hf : o.field.ValidFor 5) :
    loadContent o s = .ok (extracted (s.mem.get (effectiveAddress o s).toNat) o.field) := by
  simp [loadContent, memRead_ok ha, fieldAlignedRight_ok hf]

/-- All that `loadContent` can do on a valid field. -/
theorem loadContent_cases {o : Operands} (hf : o.field.ValidFor 5) (s : State) :
    (addressExists (effectiveAddress o s) ∧
        loadContent o s = .ok (extracted (s.mem.get (effectiveAddress o s).toNat) o.field)) ∨
      (¬ addressExists (effectiveAddress o s) ∧
        loadContent o s = .error (.indexError (effectiveAddress o s))) := by
  by_cases ha : addressExists (effectiveAddress o s)
  · exact .inl ⟨ha, loadContent_ok ha hf⟩
  · exact .inr ⟨ha, by simp [loadContent, memRead_error ha]⟩

/-- If a Load answers a state, it wrote its target and nothing else. -/
theorem load_eq_ok {o : Operands} {r : LoadTarget} {s t : State} (h : load o r s = .ok t) :
    ∃ c, loadContent o s = .ok c ∧ t = s.setLoaded r c := by
  obtain ⟨c, hc, ht⟩ := bind_eq_ok h
  exact ⟨c, hc, by cases ht; rfl⟩

/-- If a Load-Negative answers a state, it wrote its target and nothing else. -/
theorem loadNeg_eq_ok {o : Operands} {r : LoadTarget} {s t : State} (h : loadNeg o r s = .ok t) :
    ∃ c, loadContent o s = .ok c ∧
      t = s.setLoaded r (if o.field.containsSign then negateWord c else c) := by
  obtain ⟨c, hc, ht⟩ := bind_eq_ok h
  exact ⟨c, hc, by cases ht; rfl⟩

theorem load_ok {o : Operands} {r : LoadTarget} {s : State} (ha : addressExists (effectiveAddress o s))
    (hf : o.field.ValidFor 5) :
    load o r s = .ok (s.setLoaded r (extracted (s.mem.get (effectiveAddress o s).toNat) o.field)) := by
  rw [load, loadContent_ok ha hf]
  rfl

theorem loadNeg_ok {o : Operands} {r : LoadTarget} {s : State} (ha : addressExists (effectiveAddress o s))
    (hf : o.field.ValidFor 5) :
    loadNeg o r s = .ok (s.setLoaded r
      (if o.field.containsSign then negateWord (extracted (s.mem.get (effectiveAddress o s).toNat) o.field)
        else extracted (s.mem.get (effectiveAddress o s).toNat) o.field)) := by
  rw [loadNeg, loadContent_ok ha hf]
  rfl

/-! Store. -/

/-- The aligned source of a Store from a register wide enough for the field: its sign, and at each position of the field
the register byte that R221 puts there. -/
theorem storeAligned_spec {n : Nat} {v : Word n} {f : FieldSpec} (hf : f.ValidFor 5) (hk : f.byteCount ≤ n)
    (hn : n ≤ 5) :
    ∃ src, storeAligned v f = .ok src ∧ (f.left = 0 → src.sign = v.sign) ∧
      ∀ i, f.firstByte ≤ i → i ≤ f.right → src.byteAt i = v.byteAt (n + i - f.right) := by
  have hsum := FieldSpec.firstByte_add_byteCount hf
  have hfirst := f.one_le_firstByte
  have hr := hf.2
  have hc : ¬ ((f.byteCount : Int) < 0 ∨ (f.byteCount : Int) > n) := by omega
  have hshift : (5 : Int) - f.right = ((5 - f.right : Nat) : Int) := by omega
  have bytes : ∀ (sg : Sign) (i : Nat), f.firstByte ≤ i → i ≤ f.right →
      (Word.build 5 sg fun i => if i + (5 - f.right) ≤ 5 then
        (widen 5 (keepRight v sg f.byteCount)).byteAt (i + (5 - f.right)) else 0).byteAt i =
        v.byteAt (n + i - f.right) := by
    intro sg i h1 h2
    rw [Word.byteAt_build _ _ (by omega) (by omega), if_pos (by omega), widen_byteAt _ (by omega) (by omega),
      if_neg (by omega), keepRight, Word.byteAt_build _ _ (by omega) (by omega), if_pos (by omega)]
    congr 1
    omega
  unfold storeAligned rightmostBytes rightmostBytesWithSign
  simp only [if_neg hc, hshift, Int.toNat_natCast]
  by_cases hl : f.containsSign
  · rw [if_pos hl, bind_ok, leftShift_ok]
    exact ⟨_, rfl, fun _ => rfl, bytes v.sign⟩
  · rw [if_neg hl, bind_ok, leftShift_ok]
    exact ⟨_, rfl, fun h => absurd h hl, bytes .plus⟩

/-- A Store of a field the register is wide enough for has the content of `storeAligned`. -/
theorem storeContent_fits {n : Nat} {p : Params} {v : Word n} {f : FieldSpec} (hk : f.byteCount ≤ n) :
    storeContent p v f = storeAligned v f := if_neg (by omega)

/-- The count fault of a Store (R232). -/
theorem storeContent_wide {n : Nat} {v : Word n} {f : FieldSpec} (hk : n < f.byteCount) :
    storeContent Config.hardware v f = .error (.invalidArgument (.count f.byteCount)) := if_pos hk

/-- The word a Store leaves at M (R118): the field's positions from `src`, all others kept. -/
abbrev merged (old src : Word 5) (f : FieldSpec) : Word 5 :=
  .build 5 (if f.left = 0 then src.sign else old.sign) fun i =>
    if f.firstByte ≤ i ∧ i ≤ f.right then src.byteAt i else old.byteAt i

theorem storeField_ok {o : Operands} {src : Word 5} {s : State} (ha : addressExists (effectiveAddress o s))
    (hf : o.field.ValidFor 5) :
    storeField o src s = .ok (s.setMem (s.mem.set (effectiveAddress o s).toNat
      (merged (s.mem.get (effectiveAddress o s).toNat) src o.field))) := by
  simp only [storeField, memRead_ok ha, bind_ok, copyRange_ok hf, memWrite_ok ha]
  rfl

theorem storeField_error {o : Operands} {src : Word 5} {s : State} (ha : ¬ addressExists (effectiveAddress o s)) :
    storeField o src s = .error (.indexError (effectiveAddress o s)) := by
  simp [storeField, memRead_error ha]

/-- If the read-modify-write of a Store answers a state, the address exists and one word of memory was written. -/
theorem storeField_eq_ok {o : Operands} {src : Word 5} {s t : State} (h : storeField o src s = .ok t) :
    addressExists (effectiveAddress o s) ∧ ∃ w, t = s.setMem (s.mem.set (effectiveAddress o s).toNat w) := by
  unfold storeField at h
  obtain ⟨old, -, h⟩ := bind_eq_ok h
  obtain ⟨new, -, h⟩ := bind_eq_ok h
  obtain ⟨m, hm, h⟩ := bind_eq_ok h
  obtain ⟨ha, rfl⟩ := memWrite_eq_ok hm
  exact ⟨ha, new, by cases h; rfl⟩

/-- If a Store answers a state, the address exists and one word of memory was written. -/
theorem store_eq_ok {n : Nat} {p : Params} {o : Operands} {v : Word n} {s t : State}
    (h : store p o v s = .ok t) :
    addressExists (effectiveAddress o s) ∧ ∃ w, t = s.setMem (s.mem.set (effectiveAddress o s).toNat w) := by
  obtain ⟨src, -, h⟩ := bind_eq_ok h
  exact storeField_eq_ok h

/-! Arithmetic. -/

theorem arith_ok {p : Params} {op : ArithOp} {o : Operands} {s : State}
    (ha : addressExists (effectiveAddress o s)) (hf : o.field.ValidFor 5) :
    arith p op o s = .ok (s.setResult p (op.apply (spanValue s.rA o.field.left o.field.right)
      (spanValue (s.mem.get (effectiveAddress o s).toNat) o.field.left o.field.right))) := by
  simp only [arith, memRead_ok ha, bind_ok, toInt_field hf]
  rfl

theorem arith_error {p : Params} {op : ArithOp} {o : Operands} {s : State}
    (ha : ¬ addressExists (effectiveAddress o s)) :
    arith p op o s = .error (.indexError (effectiveAddress o s)) := by
  simp [arith, memRead_error ha]

/-- If ADD or SUB answers a state, it is the state with the result of some true result `t`. -/
theorem arith_eq_ok {p : Params} {op : ArithOp} {o : Operands} {s u : State} (h : arith p op o s = .ok u) :
    addressExists (effectiveAddress o s) ∧ ∃ t, u = s.setResult p t := by
  unfold arith at h
  obtain ⟨w, hw, h⟩ := bind_eq_ok h
  obtain ⟨a, -, h⟩ := bind_eq_ok h
  obtain ⟨b, -, h⟩ := bind_eq_ok h
  rcases memRead_cases s.mem (effectiveAddress o s) with ⟨ha, -⟩ | ⟨-, he⟩
  · exact ⟨ha, _, by cases h; rfl⟩
  · rw [he] at hw
    cases hw

end Sys2Proof.Machine
end

