-- ==== Sys2Proof/Laws/Decode.lean ====
section
/-! SUPPORT. What decode and dispatch can answer. -/

namespace Sys2Proof

open Machine

/-- The value of a sign and two bytes lies in -4095..4095 (R81, R156). -/
theorem spanValue_two_bounds {n : Nat} (w : Word n) : -4095 ≤ spanValue w 0 2 ∧ spanValue w 0 2 ≤ 4095 := by
  have h := spanValue_natAbs w 0 2
  have hlt := spanMag_lt w 1 2
  simp only [show max 0 1 = 1 from rfl, show 2 + 1 - 1 = 2 from rfl] at h
  omega

/-- All that `decodeIndex` can do (R82). -/
theorem decodeIndex_cases (i : Nat) :
    (i ≤ 6 ∧ ∃ x, decodeIndex i = .ok x) ∨ (7 ≤ i ∧ decodeIndex i = .error (.invalidIndexSpec i)) := by
  match i with
  | 0 | 1 | 2 | 3 | 4 | 5 | 6 => exact .inl ⟨by omega, _, rfl⟩
  | k + 7 => exact .inr ⟨by omega, rfl⟩

/-- All that `decodeFieldSpec` can do (R83, R87). -/
theorem decodeFieldSpec_cases (f : Nat) :
    ((decodeField f).ValidFor 5 ∧ decodeFieldSpec f = .ok (decodeField f)) ∨
      (¬ (decodeField f).ValidFor 5 ∧ decodeFieldSpec f = .error (.invalidArgument (.field f))) := by
  unfold decodeFieldSpec
  by_cases h : (decodeField f).ValidFor 5
  · exact .inl ⟨h, if_pos h⟩
  · exact .inr ⟨h, if_neg h⟩

/-- All that `decodeFields` can do (R90): the decoded fields of a word, well formed, or the first fault. -/
theorem decodeFields_cases (w : Word 5) :
    (∃ x, decodeIndex (w.byteAt 3).val = .ok x ∧ (decodeField (w.byteAt 4).val).ValidFor 5 ∧
        decodeFields w = .ok ⟨⟨spanValue w 0 2, x, decodeField (w.byteAt 4).val⟩, w.byteAt 5⟩) ∨
      (7 ≤ (w.byteAt 3).val ∧ decodeFields w = .error (.invalidIndexSpec (w.byteAt 3).val)) ∨
      ((w.byteAt 3).val ≤ 6 ∧ ¬ (decodeField (w.byteAt 4).val).ValidFor 5 ∧
        decodeFields w = .error (.invalidArgument (.field (w.byteAt 4).val))) := by
  rcases decodeIndex_cases (w.byteAt 3).val with ⟨hi, x, hx⟩ | ⟨hi, hx⟩
  · rcases decodeFieldSpec_cases (w.byteAt 4).val with ⟨hf, he⟩ | ⟨hf, he⟩
    · exact .inl ⟨x, hx, hf, by simp only [decodeFields, hx, he, bind_ok]; rfl⟩
    · exact .inr (.inr ⟨hi, hf, by simp only [decodeFields, hx, he, bind_ok, bind_error]⟩)
  · exact .inr (.inl ⟨hi, by simp only [decodeFields, hx, bind_error]⟩)

/-- Decoded fields are well formed. -/
theorem decodeFields_wellFormed {w : Word 5} {d : Decoded} (h : decodeFields w = .ok d) : d.operands.WellFormed := by
  rcases decodeFields_cases w with ⟨x, -, hf, he⟩ | ⟨-, he⟩ | ⟨-, -, he⟩
  · rw [he] at h
    cases h
    exact ⟨(spanValue_two_bounds w).1, (spanValue_two_bounds w).2, hf⟩
  · rw [he] at h; cases h
  · rw [he] at h; cases h

/-- Every entry of the opcode map keeps the operands it is given. -/
theorem opcodeTable_operands (o : Operands) : ∀ r ∈ opcodeTable, (r.2 o).operands = o := by
  simp [opcodeTable, arithmeticCodes, loadCodes, loadNegativeCodes, storeCodes, Instr.operands]

/-- What a lookup finds stands in the table. -/
theorem mem_of_lookup {α : Type} {c : Nat} {v : α} : ∀ {l : List (Nat × α)}, l.lookup c = some v → (c, v) ∈ l
  | (k, u) :: l, h => by
    by_cases hk : c = k
    · subst hk
      simp_all [List.lookup]
    · have hb : (c == k) = false := by simpa using hk
      rw [List.lookup, hb] at h
      exact List.mem_cons_of_mem _ (mem_of_lookup h)

/-- All that `dispatch` can do (R154): an instruction of the map with the operands unchanged, or UnknownOpCode. -/
theorem dispatch_cases (d : Decoded) :
    (∃ i, dispatch d = .ok i ∧ i.operands = d.operands) ∨
      (opcodeTable.lookup d.opCode.val = none ∧ dispatch d = .error (.unknownOpCode d.opCode.val)) := by
  unfold dispatch
  cases h : opcodeTable.lookup d.opCode.val with
  | none => exact .inr ⟨rfl, rfl⟩
  | some mk => exact .inl ⟨_, rfl, opcodeTable_operands d.operands _ (mem_of_lookup h)⟩

end Sys2Proof
end

