-- ==== Sys2Proof/Laws/PerInstr.lean ====
section
/-! SUPPORT. One lemma per instruction: its operation code selects it (R91). -/

namespace Sys2Proof.Laws.OpCodeSelects

/-- Dispatch on the instruction's own operation code and operands answers the instruction. -/
def Statement (i : Instr) : Prop := dispatch ⟨i.operands, i.opCode⟩ = .ok i

theorem add (o : Operands) : Statement (.add o) := rfl
theorem sub (o : Operands) : Statement (.sub o) := rfl
theorem lda (o : Operands) : Statement (.lda o) := rfl
theorem ld1 (o : Operands) : Statement (.ld1 o) := rfl
theorem ld2 (o : Operands) : Statement (.ld2 o) := rfl
theorem ld3 (o : Operands) : Statement (.ld3 o) := rfl
theorem ld4 (o : Operands) : Statement (.ld4 o) := rfl
theorem ld5 (o : Operands) : Statement (.ld5 o) := rfl
theorem ld6 (o : Operands) : Statement (.ld6 o) := rfl
theorem ldx (o : Operands) : Statement (.ldx o) := rfl
theorem ldan (o : Operands) : Statement (.ldan o) := rfl
theorem ld1n (o : Operands) : Statement (.ld1n o) := rfl
theorem ld2n (o : Operands) : Statement (.ld2n o) := rfl
theorem ld3n (o : Operands) : Statement (.ld3n o) := rfl
theorem ld4n (o : Operands) : Statement (.ld4n o) := rfl
theorem ld5n (o : Operands) : Statement (.ld5n o) := rfl
theorem ld6n (o : Operands) : Statement (.ld6n o) := rfl
theorem ldxn (o : Operands) : Statement (.ldxn o) := rfl
theorem sta (o : Operands) : Statement (.sta o) := rfl
theorem st1 (o : Operands) : Statement (.st1 o) := rfl
theorem st2 (o : Operands) : Statement (.st2 o) := rfl
theorem st3 (o : Operands) : Statement (.st3 o) := rfl
theorem st4 (o : Operands) : Statement (.st4 o) := rfl
theorem st5 (o : Operands) : Statement (.st5 o) := rfl
theorem st6 (o : Operands) : Statement (.st6 o) := rfl
theorem stx (o : Operands) : Statement (.stx o) := rfl
theorem stj (o : Operands) : Statement (.stj o) := rfl
theorem stz (o : Operands) : Statement (.stz o) := rfl

end Sys2Proof.Laws.OpCodeSelects
end

