-- ==== Sys2Proof/Laws/Step.lean ====
section
/-! SUPPORT. What an instruction and a step can do, said once. -/

namespace Sys2Proof.Machine

/-- What an instruction with operands `o` can make of a state: it wrote one register, one word of memory, or rA and the
overflow bit; or it recorded one of the two faults of Execute (R283, orders 5 and 6). -/
inductive Effect (o : Operands) (s : State) : State → Prop where
  | loaded (r : LoadTarget) (c : Word 5) (h : addressExists (effectiveAddress o s)) : Effect o s (s.setLoaded r c)
  | stored (w : Word 5) (h : addressExists (effectiveAddress o s)) :
      Effect o s (s.setMem (s.mem.set (effectiveAddress o s).toNat w))
  | calculated (t : Int) (h : addressExists (effectiveAddress o s)) : Effect o s (s.setResult Config.hardware t)
  | badAddress (h : ¬ addressExists (effectiveAddress o s)) :
      Effect o s (raiseFault (.indexError (effectiveAddress o s)) (s.pc - 1) s)
  | badCount (h : 2 < o.field.byteCount) :
      Effect o s (raiseFault (.invalidArgument (.count o.field.byteCount)) (s.pc - 1) s)

variable {o : Operands} {s : State}

theorem load_effect (hf : o.field.ValidFor 5) (r : LoadTarget) :
    ∃ t, complete s (load o r s) = .next t ∧ Effect o s t := by
  by_cases ha : addressExists (effectiveAddress o s)
  · exact ⟨_, by rw [load_ok ha hf]; rfl, .loaded r _ ha⟩
  · exact ⟨_, by rw [load, loadContent, memRead_error ha]; rfl, .badAddress ha⟩

theorem loadNeg_effect (hf : o.field.ValidFor 5) (r : LoadTarget) :
    ∃ t, complete s (loadNeg o r s) = .next t ∧ Effect o s t := by
  by_cases ha : addressExists (effectiveAddress o s)
  · exact ⟨_, by rw [loadNeg_ok ha hf]; rfl, .loaded r _ ha⟩
  · exact ⟨_, by rw [loadNeg, loadContent, memRead_error ha]; rfl, .badAddress ha⟩

theorem storeField_effect (hf : o.field.ValidFor 5) (src : Word 5) :
    ∃ t, complete s (storeField o src s) = .next t ∧ Effect o s t := by
  by_cases ha : addressExists (effectiveAddress o s)
  · exact ⟨_, by rw [storeField_ok ha hf]; rfl, .stored _ ha⟩
  · exact ⟨_, by rw [storeField_error ha]; rfl, .badAddress ha⟩

theorem store_effect {n : Nat} (hf : o.field.ValidFor 5) (h2 : 2 ≤ n) (h5 : n ≤ 5) (v : Word n) :
    ∃ t, complete s (store Config.hardware o v s) = .next t ∧ Effect o s t := by
  by_cases hk : o.field.byteCount ≤ n
  · obtain ⟨src, hsrc, -⟩ := storeAligned_spec (v := v) hf hk h5
    rw [store, storeContent_fits hk, hsrc]
    exact storeField_effect hf src
  · refine ⟨_, ?_, .badCount (by omega)⟩
    rw [store, storeContent_wide (by omega)]
    rfl

theorem arith_effect (hf : o.field.ValidFor 5) (op : ArithOp) :
    ∃ t, complete s (arith Config.hardware op o s) = .next t ∧ Effect o s t := by
  by_cases ha : addressExists (effectiveAddress o s)
  · exact ⟨_, by rw [arith_ok ha hf]; rfl, .calculated _ ha⟩
  · exact ⟨_, by rw [arith_error ha]; rfl, .badAddress ha⟩

/-- All that an instruction can do: it always answers a next state, with one of the effects above. -/
theorem exec_effect (i : Instr) (s : State) (hf : i.operands.field.ValidFor 5) :
    ∃ t, exec i s = .next t ∧ Effect i.operands s t := by
  cases i
  case add | sub => exact arith_effect hf _
  case lda | ldx | ld1 | ld2 | ld3 | ld4 | ld5 | ld6 => exact load_effect hf _
  case ldan | ldxn | ld1n | ld2n | ld3n | ld4n | ld5n | ld6n => exact loadNeg_effect hf _
  case sta | stx => exact store_effect hf (by decide) (by decide) _
  case stj | st1 | st2 | st3 | st4 | st5 | st6 => exact store_effect hf (by decide) (by decide) _
  case stz => exact storeField_effect hf _

/-! The same without a hypothesis on the field, as the inversion of an answered state. -/

/-- What an instruction can have made of a state, whatever its operands. -/
inductive Change (o : Operands) (s : State) : State → Prop where
  | loaded (r : LoadTarget) (c : Word 5) : Change o s (s.setLoaded r c)
  | stored (w : Word 5) (h : addressExists (effectiveAddress o s)) :
      Change o s (s.setMem (s.mem.set (effectiveAddress o s).toNat w))
  | calculated (t : Int) : Change o s (s.setResult Config.hardware t)
  | faulted (k : FaultKind) : Change o s (raiseFault k (s.pc - 1) s)

theorem complete_change {x : Except FaultKind State} {t : State} (h : complete s x = .next t)
    (hx : ∀ u, x = .ok u → Change o s u) : Change o s t := by
  rcases complete_eq_next h with h | ⟨k, -, rfl⟩
  · exact hx t h
  · exact .faulted k

theorem load_change {r : LoadTarget} {t : State} (h : complete s (load o r s) = .next t) : Change o s t :=
  complete_change h fun u hu => by
    obtain ⟨c, -, rfl⟩ := load_eq_ok hu
    exact .loaded r c

theorem loadNeg_change {r : LoadTarget} {t : State} (h : complete s (loadNeg o r s) = .next t) : Change o s t :=
  complete_change h fun u hu => by
    obtain ⟨c, -, rfl⟩ := loadNeg_eq_ok hu
    exact .loaded r _

theorem store_change {n : Nat} {v : Word n} {t : State} (h : complete s (store Config.hardware o v s) = .next t) :
    Change o s t :=
  complete_change h fun u hu => by
    obtain ⟨ha, w, rfl⟩ := store_eq_ok hu
    exact .stored w ha

theorem storeField_change {src : Word 5} {t : State} (h : complete s (storeField o src s) = .next t) :
    Change o s t :=
  complete_change h fun u hu => by
    obtain ⟨ha, w, rfl⟩ := storeField_eq_ok hu
    exact .stored w ha

theorem arith_change {op : ArithOp} {t : State} (h : complete s (arith Config.hardware op o s) = .next t) :
    Change o s t :=
  complete_change h fun u hu => by
    obtain ⟨-, x, rfl⟩ := arith_eq_ok hu
    exact .calculated x

/-- All that an answered state of an instruction can be. -/
theorem exec_change {i : Instr} {s t : State} (h : exec i s = .next t) : Change i.operands s t := by
  cases i
  case add | sub => exact arith_change h
  case lda | ldx | ld1 | ld2 | ld3 | ld4 | ld5 | ld6 => exact load_change h
  case ldan | ldxn | ld1n | ld2n | ld3n | ld4n | ld5n | ld6n => exact loadNeg_change h
  case sta | stx | stj | st1 | st2 | st3 | st4 | st5 | st6 => exact store_change h
  case stz => exact storeField_change h

/-- What a step of a running machine can do: a fault of Fetch, of Decode or of dispatch, or the instruction it decoded
with one of its effects. -/
inductive StepEffect (s : State) : State → Prop where
  | fetchFault (h : Config.memSize ≤ s.pc) : StepEffect s (raiseFault (.indexError s.pc) s.pc s)
  | indexFault (w : Word 5) (hw : fetch s = .ok w) (h : 7 ≤ (w.byteAt 3).val) :
      StepEffect s (raiseFault (.invalidIndexSpec (w.byteAt 3).val) s.pc s)
  | fieldFault (w : Word 5) (hw : fetch s = .ok w) (h : ¬ (decodeField (w.byteAt 4).val).ValidFor 5) :
      StepEffect s (raiseFault (.invalidArgument (.field (w.byteAt 4).val)) s.pc s)
  | opCodeFault (w : Word 5) (hpc : s.pc < Config.memSize) (h : opcodeTable.lookup (w.byteAt 5).val = none) :
      StepEffect s (raiseFault (.unknownOpCode (w.byteAt 5).val) s.pc s.advance)
  | ran (i : Instr) (t : State) (hpc : s.pc < Config.memSize) (hi : i.WellFormed) (hx : exec i s.advance = .next t)
      (he : Effect i.operands s.advance t) : StepEffect s t

/-- A faulted machine has no step (R284). -/
theorem step_faulted {s : State} {k : FaultKind} {p : Nat} (h : s.status = .faulted k p) :
    step s = .fault (.stopped k p) := by
  unfold step stepOf
  rw [h]

/-- A running machine runs one cycle. -/
theorem step_running {s : State} (h : s.status = .running) : step s = cycle s := by
  unfold step stepOf
  rw [h]

/-! The phases of a cycle, one lemma per way through them (R150). -/

theorem fetch_ok {s : State} (h : s.pc < Config.memSize) : fetch s = .ok (s.mem.get s.pc) := by
  unfold fetch
  rw [memRead_ok ⟨Int.natCast_nonneg _, h⟩, Int.toNat_natCast]

theorem fetch_error {s : State} (h : Config.memSize ≤ s.pc) : fetch s = .error (.indexError s.pc) :=
  memRead_error fun ha => Nat.not_lt.2 h ha.2

theorem cycle_fetch_error {s : State} {k : FaultKind} (hf : fetch s = .error k) :
    cycle s = .next (raiseFault k s.pc s) := by
  unfold cycle
  rw [hf]

theorem cycle_decode_error {s : State} {w : Word 5} {k : FaultKind} (hf : fetch s = .ok w)
    (hd : decodeFields w = .error k) : cycle s = .next (raiseFault k s.pc s) := by
  unfold cycle
  rw [hf]
  dsimp only
  rw [hd]

theorem cycle_decoded {s : State} {w : Word 5} {d : Decoded} (hf : fetch s = .ok w) (hd : decodeFields w = .ok d) :
    cycle s = executeDecoded d s.advance := by
  unfold cycle
  rw [hf]
  dsimp only
  rw [hd]

theorem executeDecoded_error {d : Decoded} {k : FaultKind} (s : State) (hk : dispatch d = .error k) :
    executeDecoded d s = .next (raiseFault k (s.pc - 1) s) := by
  unfold executeDecoded
  rw [hk]

theorem executeDecoded_ok {d : Decoded} {i : Instr} (s : State) (hi : dispatch d = .ok i) :
    executeDecoded d s = exec i s := by
  unfold executeDecoded
  rw [hi]

/-- All that a step can do: it is stuck on a faulted machine, and has one of the effects above on a running one. -/
theorem step_effect (s : State) :
    (∃ k p, s.status = .faulted k p ∧ step s = .fault (.stopped k p)) ∨
      (s.status = .running ∧ ∃ t, step s = .next t ∧ StepEffect s t) := by
  rcases hst : s.status with _ | ⟨k, p⟩
  case faulted => exact .inl ⟨k, p, rfl, step_faulted hst⟩
  case running =>
    refine .inr ⟨rfl, ?_⟩
    rw [step_running hst]
    rcases Nat.lt_or_ge s.pc Config.memSize with hpc | hpc
    · have hw := fetch_ok hpc
      generalize s.mem.get s.pc = w at hw
      rcases decodeFields_cases w with ⟨x, -, hf, hd⟩ | ⟨h7, hd⟩ | ⟨-, hf, hd⟩
      · have hwf := decodeFields_wellFormed hd
        rw [cycle_decoded hw hd]
        rcases dispatch_cases ⟨⟨spanValue w 0 2, x, decodeField (w.byteAt 4).val⟩, w.byteAt 5⟩ with
          ⟨i, hi, ho⟩ | ⟨hl, hi⟩
        · obtain ⟨t, ht, he⟩ := exec_effect i s.advance (by rw [ho]; exact hf)
          rw [executeDecoded_ok _ hi]
          exact ⟨t, ht, .ran i t hpc (by rw [Instr.WellFormed, ho]; exact hwf) ht he⟩
        · exact ⟨_, executeDecoded_error _ hi, .opCodeFault w hpc hl⟩
      · exact ⟨_, cycle_decode_error hw hd, .indexFault w hw h7⟩
      · exact ⟨_, cycle_decode_error hw hd, .fieldFault w hw hf⟩
    · exact ⟨_, cycle_fetch_error (fetch_error hpc), .fetchFault hpc⟩

/-- The effect of a step that answers a next state. -/
theorem step_eq_next {s t : State} (h : step s = .next t) : s.status = .running ∧ StepEffect s t := by
  rcases step_effect s with ⟨k, p, -, hs⟩ | ⟨hr, u, hs, he⟩
  · rw [hs] at h; cases h
  · rw [hs] at h; cases h; exact ⟨hr, he⟩

/-- A run of one more step, on any machine. -/
theorem core_run_succ (M : Host.Core) {a b : M.State} (h : M.step a = .next b) (k : Nat) :
    M.run (k + 1) a = M.run k b := by
  rw [Host.Core.run.eq_def]
  simp only [h]

/-- A run of this machine of one more step. -/
theorem run_succ {a b : State} (h : step a = .next b) (k : Nat) :
    Sys2Proof.core.run (k + 1) a = Sys2Proof.core.run k b := core_run_succ Sys2Proof.core h k

end Sys2Proof.Machine
end

