-- ==== Sys2Proof/Tests/Slice0.lean ====
section
/-! SUPPORT. Tests: expected values are those of the spec (its worked examples and the vectors of 95_test_vectors.md, by
their names), and for each statement with hypotheses a witness that meets them. -/

namespace Sys2Proof.Tests

open Sys2Proof.Machine

/-! The states and words the tests use. -/

/-- `[-, 1, 2, 3, 4, 5]`. -/
def n5 : Word 5 := word5 .minus 1 2 3 4 5

/-- `[+, 1, 2, 3, 4, 5]`. -/
def p5 : Word 5 := word5 .plus 1 2 3 4 5

/-- `[+, 10, 20, 30, 40, 50]`. -/
def tens : Word 5 := word5 .plus 10 20 30 40 50

/-- The largest word, MAX5. -/
def max5 : Word 5 := word5 .plus 63 63 63 63 63

/-- The reset machine with these words written to memory. -/
def machine (cells : List (Nat × Word 5)) : State :=
  { State.reset with mem := cells.foldl (fun m c => m.set c.1 c.2) [] }

/-- The state a step leads to; `s` itself where there is none. -/
def after (s : State) : State :=
  match step s with
  | .next t => t
  | _ => s

/-- The state an instruction leads to; `s` itself where there is none. -/
def execAfter (i : Instr) (s : State) : State :=
  match exec i s with
  | .next t => t
  | _ => s

/-- Whether a computation answers the value `a`. -/
def answers {α : Type} [DecidableEq α] (x : Except FaultKind α) (a : α) : Bool :=
  match x with
  | .ok b => b = a
  | .error _ => false

/-- Whether a computation fails with the fault `k`. -/
def fails {α : Type} (x : Except FaultKind α) (k : FaultKind) : Bool :=
  match x with
  | .ok _ => false
  | .error j => j = k

/-- Operands without an index register. -/
def at_ (a : Int) (l r : Nat) : Operands := ⟨a, none, ⟨l, r⟩⟩

/-! Well-formedness refuses each ill-formed part (R81, R87). -/

theorem test_wf_address_above : ¬ (Instr.lda (at_ 4096 0 5)).WellFormed := by decide
theorem test_wf_address_below : ¬ (Instr.lda (at_ (-4096) 0 5)).WellFormed := by decide
theorem test_wf_field_reversed : ¬ (Instr.lda (at_ 0 3 2)).WellFormed := by decide
theorem test_wf_field_wide : ¬ (Instr.lda (at_ 0 0 6)).WellFormed := by decide
theorem test_wf_bounds : (Instr.lda (at_ (-4095) 5 5)).WellFormed ∧ (Instr.lda (at_ 4095 0 0)).WellFormed := by decide

/-! Decoding (R80 to R93), on words written out from the encoding: every constructor, every valid field byte. -/

theorem test_decode_arithmetic :
    answers (decode (word5 .plus 7 52 0 5 1)) (.add (at_ 500 0 5)) ∧
      answers (decode (word5 .minus 7 52 6 37 2)) (.sub ⟨-500, some .i6, ⟨4, 5⟩⟩) := by decide

theorem test_decode_load :
    answers (decode (word5 .plus 1 36 2 5 8)) (.lda ⟨100, some .i2, ⟨0, 5⟩⟩) ∧
      answers (decode (word5 .plus 1 36 0 10 9)) (.ld1 (at_ 100 1 2)) ∧
      answers (decode (word5 .plus 0 60 1 0 10)) (.ld2 ⟨60, some .i1, ⟨0, 0⟩⟩) ∧
      answers (decode (word5 .plus 0 7 3 13 11)) (.ld3 ⟨7, some .i3, ⟨1, 5⟩⟩) ∧
      answers (decode (word5 .plus 0 8 4 27 12)) (.ld4 ⟨8, some .i4, ⟨3, 3⟩⟩) ∧
      answers (decode (word5 .minus 0 0 5 1 13)) (.ld5 ⟨0, some .i5, ⟨0, 1⟩⟩) ∧
      answers (decode (word5 .plus 63 63 6 45 14)) (.ld6 ⟨4095, some .i6, ⟨5, 5⟩⟩) ∧
      answers (decode (word5 .minus 63 63 0 20 15)) (.ldx (at_ (-4095) 2 4)) := by decide

theorem test_decode_load_negative :
    answers (decode (word5 .plus 1 36 0 9 16)) (.ldan (at_ 100 1 1)) ∧
      answers (decode (word5 .plus 3 8 0 2 17)) (.ld1n (at_ 200 0 2)) ∧
      answers (decode (word5 .plus 1 36 0 28 18)) (.ld2n (at_ 100 3 4)) ∧
      answers (decode (word5 .plus 1 36 0 11 19)) (.ld3n (at_ 100 1 3)) ∧
      answers (decode (word5 .plus 0 5 0 18 20)) (.ld4n (at_ 5 2 2)) ∧
      answers (decode (word5 .plus 0 6 0 19 21)) (.ld5n (at_ 6 2 3)) ∧
      answers (decode (word5 .plus 0 6 0 4 22)) (.ld6n (at_ 6 0 4)) ∧
      answers (decode (word5 .plus 1 36 0 3 23)) (.ldxn (at_ 100 0 3)) := by decide

theorem test_decode_store :
    answers (decode (word5 .plus 3 8 0 12 24)) (.sta (at_ 200 1 4)) ∧
      answers (decode (word5 .plus 3 8 0 28 25)) (.st1 (at_ 200 3 4)) ∧
      answers (decode (word5 .plus 62 32 0 37 26)) (.st2 (at_ 4000 4 5)) ∧
      answers (decode (word5 .plus 3 8 0 21 27)) (.st3 (at_ 200 2 5)) ∧
      answers (decode (word5 .plus 3 8 0 29 28)) (.st4 (at_ 200 3 5)) ∧
      answers (decode (word5 .plus 3 8 0 0 29)) (.st5 (at_ 200 0 0)) ∧
      answers (decode (word5 .plus 3 8 0 11 30)) (.st6 (at_ 200 1 3)) ∧
      answers (decode (word5 .plus 3 8 0 36 31)) (.stx (at_ 200 4 4)) ∧
      answers (decode (word5 .plus 3 8 0 2 32)) (.stj (at_ 200 0 2)) ∧
      answers (decode (word5 .plus 3 8 0 13 33)) (.stz (at_ 200 1 5)) := by decide

/-- D-4 to D-16: the illegal parts, and which of several is reported. -/
theorem test_decode_illegal :
    fails (decode (word5 .plus 0 0 7 5 8)) (.invalidIndexSpec 7) ∧
      fails (decode (word5 .plus 0 0 63 63 63)) (.invalidIndexSpec 63) ∧
      fails (decode (word5 .plus 0 0 0 6 8)) (.invalidArgument (.field 6)) ∧
      fails (decode (word5 .plus 0 0 0 8 8)) (.invalidArgument (.field 8)) ∧
      fails (decode (word5 .plus 0 0 0 46 8)) (.invalidArgument (.field 46)) ∧
      fails (decode (word5 .plus 0 0 0 5 3)) (.unknownOpCode 3) ∧
      fails (decode (word5 .plus 0 0 0 5 34)) (.unknownOpCode 34) ∧
      fails (decode (word5 .plus 63 63 6 45 63)) (.unknownOpCode 63) ∧
      fails (decode (word5 .plus 0 0 7 6 0)) (.invalidIndexSpec 7) ∧
      fails (decode (word5 .plus 0 0 0 6 0)) (.invalidArgument (.field 6)) := by decide

/-- R95, R97, D-2 and S-11: the packed words of the vectors. -/
theorem test_packed_words :
    unpack 0x1902148 = word5 .plus 1 36 2 5 8 ∧ unpack 0x40140148 = word5 .minus 0 5 0 5 8 ∧
      pack (word5 .plus 3 8 0 28 25) = 0x3200719 ∧ pack (word5 .plus 63 63 6 45 63) = 0x3ffc6b7f ∧
      decodeTableWord 32 0x1902148 = some (.lda ⟨100, some .i2, ⟨0, 5⟩⟩) ∧ decodeTableWord 32 0x162 = none := by decide

/-- R95: the word placed at the pc is the one the next step runs. -/
theorem test_with_fetch_word :
    (after (State.reset.withFetchWord 32 0x148)).rA = word5 .plus 0 0 0 5 8 ∧
      (after (State.reset.withFetchWord 32 0x7148)).status = .faulted (.invalidIndexSpec 7) 0 := by decide

/-! The datapath (vectors W-1 to W-25, and the worked examples of R117). -/

theorem test_shifts :
    answers (rightShift p5 2) (word5 .plus 0 0 1 2 3) ∧ answers (leftShift p5 2) (word5 .plus 3 4 5 0 0) ∧
      answers (leftShift n5 9) (word5 .minus 0 0 0 0 0) ∧ fails (rightShift p5 (-1)) (.invalidArgument (.shift (-1))) ∧
      answers (rightShift (word2 .minus 7 9) 1) (word2 .minus 0 7) := by decide

theorem test_rotations :
    answers (rotateRight p5 2) (word5 .plus 4 5 1 2 3) ∧ answers (rotateLeft p5 7) (word5 .plus 3 4 5 1 2) ∧
      answers (rotateRight p5 5) p5 ∧ fails (rotateLeft p5 (-1)) (.invalidArgument (.rotate (-1))) ∧
      answers (rotateLeft (word2 .plus 7 9) 1) (word2 .plus 9 7) := by decide

theorem test_alignment :
    answers (fieldAlignedRight n5 ⟨2, 3⟩) (word5 .plus 0 0 0 2 3) ∧
      answers (fieldAlignedRight n5 ⟨0, 0⟩) (word5 .minus 0 0 0 0 0) ∧
      answers (fieldAlignedRight n5 ⟨5, 5⟩) (word5 .plus 0 0 0 0 5) ∧
      answers (fieldAlignedLeft n5 ⟨2, 3⟩) (word5 .plus 2 3 0 0 0) ∧
      answers (fieldAlignedLeft n5 ⟨0, 3⟩) (word5 .minus 1 2 3 0 0) := by decide

theorem test_to_int :
    answers (toInt n5 0 5) (-17314053) ∧ answers (toInt n5 1 5) 17314053 ∧ answers (toInt n5 0 0) 0 ∧
      answers (toInt n5 3 3) 3 ∧ answers (toInt n5 1 4) 270532 ∧ answers (toInt n5 0 4) (-270532) ∧
      answers (toInt (word2 .plus 31 16) 0 2) 2000 ∧
      fails (toInt n5 4 6) (.invalidArgument (.span 4 6)) ∧ fails (toInt n5 2 1) (.invalidArgument (.span 2 1)) := by
  decide

theorem test_parts_and_widths :
    narrow 2 n5 = word2 .minus 4 5 ∧ widen 5 (word2 .minus 4 5) = word5 .minus 0 0 0 4 5 ∧
      answers (rightmostBytes n5 2) (word5 .plus 0 0 0 4 5) ∧
      answers (rightmostBytesWithSign n5 2) (word5 .minus 0 0 0 4 5) ∧
      fails (rightmostBytes (word2 .minus 1 2) 3) (.invalidArgument (.count 3)) ∧
      answers (copyRange tens n5 0 2) (word5 .minus 1 2 30 40 50) := by decide

/-! The instructions, one step each. -/

/-- The example of R182, and its vector L-11 (a negative index reaches the instruction itself). -/
theorem test_lda :
    (after (machine [(0, word5 .plus 1 36 0 2 8), (100, n5)])).rA = word5 .minus 0 0 0 1 2 ∧
      (after { machine [(0, word5 .plus 1 36 3 5 8)] with rI3 := word2 .minus 1 36 }).rA = word5 .plus 1 36 3 5 8 := by
  decide

/-- L-6. -/
theorem test_ldx :
    (after (machine [(0, word5 .plus 1 36 0 20 15), (100, n5)])).rX = word5 .plus 0 0 2 3 4 := by decide

/-- L-10: the address is computed from the old rI1. -/
theorem test_ld1 :
    (after { machine [(0, word5 .plus 1 36 1 5 9), (105, word5 .plus 0 0 0 0 50)] with rI1 := word2 .plus 0 5 }).rI1 =
      word2 .plus 0 50 := by decide

/-- The examples of R185 to R189. -/
theorem test_ld2 :
    (after (machine [(0, word5 .plus 0 60 0 5 10), (60, word5 .minus 0 0 0 0 1)])).rI2 = word2 .minus 0 1 := by decide
theorem test_ld3 :
    (after (machine [(0, word5 .plus 0 7 0 13 11), (7, word5 .plus 0 0 0 63 63)])).rI3 = word2 .plus 63 63 := by decide
theorem test_ld4 :
    (after (machine [(0, word5 .plus 0 8 0 27 12), (8, word5 .minus 9 9 9 9 9)])).rI4 = word2 .plus 0 9 := by decide
theorem test_ld5 :
    (after (machine [(0, word5 .plus 0 8 0 0 13), (8, word5 .minus 9 9 9 9 9)])).rI5 = word2 .minus 0 0 := by decide
theorem test_ld6 :
    (after { machine [(0, word5 .plus 0 8 6 5 14), (9, word5 .plus 0 0 0 0 42)] with rI6 := word2 .plus 0 1 }).rI6 =
      word2 .plus 0 42 := by decide

/-- N-2 and N-3: no negation without the sign in the field, and a negative zero. -/
theorem test_ldan :
    (after (machine [(0, word5 .plus 1 36 0 13 16), (100, n5)])).rA = p5 ∧
      (after (machine [(0, word5 .plus 1 36 0 0 16), (100, p5)])).rA = word5 .minus 0 0 0 0 0 := by decide

/-- N-5. -/
theorem test_ldxn :
    (after (machine [(0, word5 .plus 1 36 0 3 23), (100, p5)])).rX = word5 .minus 0 0 1 2 3 := by decide

/-- The examples of R204 to R209. -/
theorem test_ld1n :
    (after (machine [(0, word5 .plus 3 8 0 2 17), (200, n5)])).rI1 = word2 .plus 1 2 := by decide
theorem test_ld2n :
    (after (machine [(0, word5 .plus 0 5 0 5 18), (5, word5 .plus 0 0 0 0 3)])).rI2 = word2 .minus 0 3 := by decide
theorem test_ld3n :
    (after (machine [(0, word5 .plus 0 5 0 0 19), (5, word5 .plus 0 0 0 0 3)])).rI3 = word2 .minus 0 0 := by decide
theorem test_ld4n :
    (after (machine [(0, word5 .plus 0 5 0 45 20), (5, word5 .plus 0 0 0 0 3)])).rI4 = word2 .plus 0 3 := by decide
theorem test_ld5n :
    (after (machine [(0, word5 .plus 0 6 0 5 21), (6, word5 .minus 0 0 0 1 0)])).rI5 = word2 .plus 1 0 := by decide
theorem test_ld6n :
    (after (machine [(0, word5 .plus 0 6 0 4 22), (6, word5 .minus 0 0 0 1 0)])).rI6 = word2 .plus 0 1 := by decide

/-- S-5, and S-23: the step overwrites its own word. -/
theorem test_sta :
    (after { machine [(0, word5 .plus 3 8 0 19 24), (200, tens)] with rA := n5 }).mem.get 200 =
        word5 .plus 10 4 5 40 50 ∧
      (after { machine [(0, word5 .plus 0 0 0 5 24)] with rA := word5 .plus 7 7 7 7 7 }).mem.get 0 =
        word5 .plus 7 7 7 7 7 := by decide

/-- The example of R223, at address 200. -/
theorem test_stx :
    (after { machine [(0, word5 .plus 3 8 0 5 31), (200, word5 .plus 1 1 1 1 1)] with
      rX := word5 .minus 0 0 0 7 8 }).mem.get 200 = word5 .minus 0 0 0 7 8 := by decide

/-- S-8 and S-10. -/
theorem test_stj :
    (after (machine [(0, word5 .plus 3 8 0 2 32), (200, word5 .minus 9 9 9 9 9)])).mem.get 200 =
        word5 .plus 0 0 9 9 9 ∧
      (after (machine [(0, word5 .plus 3 8 0 5 32)])).status = .faulted (.invalidArgument (.count 5)) 0 := by decide

/-- S-11, and S-18: the count is checked before the address. -/
theorem test_st1 :
    (after { machine [(0, word5 .plus 3 8 0 28 25), (200, tens)] with rI1 := word2 .minus 1 2 }).mem.get 200 =
        word5 .plus 10 20 1 2 50 ∧
      (after (machine [(0, word5 .plus 62 32 0 5 25)])).status = .faulted (.invalidArgument (.count 5)) 0 := by decide

/-- The example of R226, and S-19. -/
theorem test_st2 :
    (after { machine [(0, word5 .plus 3 8 0 2 26), (200, p5)] with rI2 := word2 .minus 0 5 }).mem.get 200 =
        word5 .minus 0 5 3 4 5 ∧
      (after (machine [(0, word5 .plus 62 32 0 37 26)])).status = .faulted (.indexError 4000) 0 := by decide

/-- The examples of R227 to R230; for ST4, R228's fault and the effect R221 gives for (1:1). -/
theorem test_st3 :
    (after { machine [(0, word5 .plus 3 8 0 45 27), (200, n5)] with rI3 := word2 .plus 6 7 }).mem.get 200 =
      word5 .minus 1 2 3 4 7 := by decide
theorem test_st4 :
    (after { machine [(0, word5 .plus 3 8 0 9 28), (200, n5)] with rI4 := word2 .plus 6 7 }).mem.get 200 =
        word5 .minus 7 2 3 4 5 ∧
      (after (machine [(0, word5 .plus 3 8 0 11 28)])).status = .faulted (.invalidArgument (.count 3)) 0 := by decide
theorem test_st5 :
    (after { machine [(0, word5 .plus 3 8 0 0 29), (200, p5)] with rI5 := word2 .minus 6 7 }).mem.get 200 = n5 := by
  decide
theorem test_st6 :
    (after { machine [(0, word5 .plus 3 8 0 10 30), (200, n5)] with rI6 := word2 .plus 6 7 }).mem.get 200 =
      word5 .minus 6 7 3 4 5 := by decide

/-- S-21 and S-22. -/
theorem test_stz :
    (after (machine [(0, word5 .plus 3 8 0 11 33), (200, n5)])).mem.get 200 = word5 .minus 0 0 0 4 5 ∧
      (after (machine [(0, word5 .plus 3 8 0 0 33), (200, n5)])).mem.get 200 = p5 := by decide

/-- A-1 and A-8. -/
theorem test_add :
    (let t := after { machine [(0, word5 .plus 7 52 0 5 1), (500, word5 .plus 0 0 0 0 1)] with rA := max5 };
      t.rA = word5 .plus 0 0 0 0 0 ∧ t.ov = .on) ∧
    (let t := after { machine [(0, word5 .plus 7 52 0 37 1), (500, word5 .plus 0 0 0 0 1)] with rA := p5 };
      t.rA = word5 .plus 0 0 0 4 6 ∧ t.ov = .off) := by decide

/-- A-4 and A-12. -/
theorem test_sub :
    (let t := after { machine [(0, word5 .plus 7 52 0 5 2), (500, word5 .plus 0 0 0 0 1)] with
        rA := max5.withSign .minus };
      t.rA = word5 .minus 0 0 0 0 0 ∧ t.ov = .on) ∧
    (let t := after { machine [(0, word5 .plus 7 52 0 13 2), (500, word5 .minus 0 0 0 0 3)] with
        rA := word5 .minus 0 0 0 0 7 };
      t.rA = word5 .plus 0 0 0 0 4 ∧ t.ov = .off) := by decide

/-- A-1, A-2 and A-5 under the other readings of D3 and D4. -/
theorem test_alternative_arithmetic :
    let p : Params := { Config.hardware with wrapModulus := 64 ^ 5 - 1, zeroResultSign := .keepA }
    (State.reset.setResult p 1073741824).rA = word5 .plus 0 0 0 0 1 ∧
      (State.reset.setResult p 2147483646).rA = word5 .plus 0 0 0 0 0 ∧
      ((State.reset.setA (word5 .minus 0 0 0 0 5)).setResult p 0).rA = word5 .minus 0 0 0 0 0 := by decide

/-- S-17: the other reading of D5. -/
theorem test_alternative_half_store :
    answers (storeContent { Config.hardware with halfStoreWide := .widen } (word2 .minus 1 2) ⟨0, 5⟩)
      (word5 .minus 0 0 0 1 2) := by decide

/-- D-17's last step, L-12 and D-16: where the pc stands after each kind of fault. -/
theorem test_pc_after_faults :
    (let t := after { State.reset with pc := 4000 };
      t.pc = 4000 ∧ t.status = .faulted (.indexError 4000) 4000) ∧
    (let t := after { machine [(0, word5 .plus 62 31 2 5 8)] with rI2 := word2 .plus 0 1 };
      t.pc = 1 ∧ t.status = .faulted (.indexError 4000) 0 ∧ t.rA = State.reset.rA) ∧
    (let t := after (machine [(0, word5 .plus 0 0 0 6 8)]);
      t.pc = 0 ∧ t.status = .faulted (.invalidArgument (.field 6)) 0) ∧
    (let t := after State.reset;
      t.pc = 1 ∧ t.status = .faulted (.unknownOpCode 0) 0) := by decide

/-! The boundary (R38, R314, R315). -/

theorem test_accessor_bounds :
    fails (indexRegister 0 State.reset) (.indexError 0) ∧ fails (indexRegister 7 State.reset) (.indexError 7) ∧
      answers (indexRegister 1 State.reset) (Word.zero 2) ∧ answers (indexRegister 6 State.reset) (Word.zero 2) ∧
      fails (memoryCell (-1) State.reset) (.indexError (-1)) ∧ fails (memoryCell 4000 State.reset) (.indexError 4000) ∧
      answers (memoryCell 0 State.reset) (Word.zero 5) ∧ answers (memoryCell 3999 State.reset) (Word.zero 5) := by decide

/-- A word of text with a sign that is none, and one that is cut short, are rejected. -/
theorem test_loader_rejects :
    (boot [textOf p5, ⟨.invalid, #v[.byte 1, .byte 1, .byte 1, .byte 1, .byte 1]⟩]).2 ≠ none ∧
      (boot [⟨.plus, #v[.byte 1, .byte 1, .byte 1, .byte 1, .sentinel]⟩]).1 = State.reset ∧
      (boot [textOf p5]).1.mem.get 0 = p5 := by decide

/-! Witnesses: states and operands that meet the hypotheses of each statement, with each clause's boundary values. -/

theorem witness_FieldCodecIsABijection :
    (FieldSpec.mk 0 0).ValidFor 5 ∧ (FieldSpec.mk 5 5).ValidFor 5 ∧ (decodeField 0).ValidFor 5 ∧
      (decodeField 45).ValidFor 5 ∧ (63 : Nat) < 64 := by decide

theorem witness_TwentyOneFieldBytesAreValid :
    answers (decodeFieldSpec 0) ⟨0, 0⟩ ∧ answers (decodeFieldSpec 45) ⟨5, 5⟩ ∧
      fails (decodeFieldSpec 6) (.invalidArgument (.field 6)) ∧
      fails (decodeFieldSpec 63) (.invalidArgument (.field 63)) := by decide

theorem witness_ByteAccessIsBounded :
    answers (readByte p5 1) 1 ∧ answers (readByte p5 5) 5 ∧ fails (readByte p5 0) (.indexError 0) ∧
      fails (readByte p5 6) (.indexError 6) ∧ answers (writeByte p5 5 9) (word5 .plus 1 2 3 4 9) := by decide

theorem witness_SignWriteAndNegation : p5.sign = .plus ∧ n5.sign = .minus ∧ negateWord p5 = n5 := by decide

theorem witness_LeftShiftMovesBytesTowardByteOne :
    answers (leftShift n5 0) n5 ∧ answers (leftShift n5 5) (word5 .minus 0 0 0 0 0) ∧
      fails (leftShift n5 (-1)) (.invalidArgument (.shift (-1))) := by decide

theorem witness_RightShiftMovesBytesTowardByteN :
    answers (rightShift n5 0) n5 ∧ answers (rightShift n5 5) (word5 .minus 0 0 0 0 0) ∧
      fails (rightShift n5 (-1)) (.invalidArgument (.shift (-1))) := by decide

theorem witness_RotationsPermuteBytesAndUndoEachOther :
    answers (rotateLeft p5 0) p5 ∧ answers (rotateLeft p5 4) (word5 .plus 5 1 2 3 4) ∧ answers (rotateRight p5 5) p5 ∧
      answers (rotateRight (word5 .plus 5 1 2 3 4) 4) p5 ∧
      fails (rotateRight p5 (-1)) (.invalidArgument (.rotate (-1))) := by decide

theorem witness_ToIntIsTheSignedBase64Number :
    answers (toInt n5 5 5) 5 ∧ answers (toInt (word5 .minus 0 0 0 0 0) 0 5) 0 ∧
      fails (toInt n5 (-1) 5) (.invalidArgument (.span (-1) 5)) ∧ fails (toInt n5 0 6) (.invalidArgument (.span 0 6)) := by
  decide

theorem witness_CopyRangeCopiesTheRangeOnly :
    answers (copyRange tens n5 0 0) (word5 .minus 10 20 30 40 50) ∧
      answers (copyRange tens n5 5 5) (word5 .plus 10 20 30 40 5) ∧
      fails (copyRange tens n5 3 2) (.invalidArgument (.range 3 2)) ∧
      fails (copyRange tens n5 (-1) 2) (.invalidArgument (.range (-1) 2)) ∧
      fails (copyRange tens n5 0 6) (.invalidArgument (.range 0 6)) := by decide

theorem witness_FieldAlignmentMovesTheFieldToTheEdge :
    (FieldSpec.mk 0 0).ValidFor 2 ∧ (FieldSpec.mk 2 2).ValidFor 2 ∧ (FieldSpec.mk 0 5).ValidFor 5 ∧
      answers (fieldAlignedRight (word2 .minus 1 2) ⟨0, 1⟩) (word2 .minus 0 1) := by decide

theorem witness_EndExtractionKeepsBytesInPlace :
    answers (rightmostBytes n5 0) (Word.zero 5) ∧ answers (rightmostBytesWithSign n5 5) n5 ∧
      answers (leftmostBytesWithSign n5 1) (word5 .minus 1 0 0 0 0) ∧ answers (leftmostBytes n5 5) p5 ∧
      fails (rightmostBytes n5 6) (.invalidArgument (.count 6)) ∧
      fails (leftmostBytes n5 (-1)) (.invalidArgument (.count (-1))) := by decide

theorem witness_WideningThenNarrowingIsTheIdentity :
    narrow 2 (widen 5 (word2 .minus 4 5)) = word2 .minus 4 5 ∧ widen 5 n5 = n5 ∧ narrow 5 n5 = n5 := by decide

theorem witness_ReadAfterWriteAndAddressBounds :
    answers (memRead [(3999, n5)] 3999) n5 ∧ answers (memRead [] 0) (Word.zero 5) ∧
      answers (memWrite [(3999, n5)] 3999 (Word.zero 5)) [] ∧ answers (memWrite [] 0 p5) [(0, p5)] ∧
      fails (memRead [] (-1)) (.indexError (-1)) ∧ fails (memWrite [] 4000 p5) (.indexError 4000) := by decide

theorem witness_EffectiveAddressIsAddressPlusIndex :
    effectiveAddress ⟨4095, some .i1, ⟨0, 5⟩⟩ { State.reset with rI1 := word2 .plus 63 63 } = 8190 ∧
      effectiveAddress ⟨-4095, some .i6, ⟨0, 5⟩⟩ { State.reset with rI6 := word2 .minus 63 63 } = -8190 ∧
      effectiveAddress (at_ (-5) 0 5) State.reset = -5 ∧ (Operands.mk 4095 (some .i1) ⟨0, 5⟩).WellFormed := by decide

theorem witness_AddressIsSignAndTwoBytes :
    answers (decodeFields (word5 .minus 63 63 0 5 8)) ⟨at_ (-4095) 0 5, 8⟩ ∧
      answers (decodeFields (word5 .minus 0 0 0 5 8)) ⟨at_ 0 0 5, 8⟩ ∧
      answers (decodeFields (word5 .plus 63 63 0 5 8)) ⟨at_ 4095 0 5, 8⟩ := by decide

theorem witness_IndexByteSelectsTheIndexRegister :
    answers (decodeFields (word5 .plus 0 0 0 5 8)) ⟨at_ 0 0 5, 8⟩ ∧
      answers (decodeFields (word5 .plus 0 0 6 5 8)) ⟨⟨0, some .i6, ⟨0, 5⟩⟩, 8⟩ ∧
      fails (decodeFields (word5 .plus 0 0 7 5 8)) (.invalidIndexSpec 7) ∧
      fails (decodeFields (word5 .plus 0 0 63 5 8)) (.invalidIndexSpec 63) := by decide

theorem witness_DecodeOfEncodeIsTheInstruction :
    (Instr.sta ⟨-4095, some .i6, ⟨5, 5⟩⟩).WellFormed ∧
      encode (.sta ⟨-4095, some .i6, ⟨5, 5⟩⟩) = word5 .minus 63 63 6 45 24 := by decide

theorem witness_EncodeOfDecodeIsTheWord :
    answers (decode (word5 .minus 0 1 0 5 8)) (.lda (at_ (-1) 0 5)) ∧
      answers (decode (word5 .minus 0 0 0 5 8)) (.lda (at_ 0 0 5)) := by decide

theorem witness_ExactlyTheLegalWordsDecode :
    answers (decode (word5 .minus 63 63 6 45 33)) (.stz ⟨-4095, some .i6, ⟨5, 5⟩⟩) ∧
      answers (decode (word5 .plus 0 0 0 0 1)) (.add (at_ 0 0 0)) ∧
      fails (decode (word5 .plus 0 0 0 0 7)) (.unknownOpCode 7) := by decide

theorem witness_TheFirstIllegalPartIsReported :
    fails (decode (word5 .plus 0 0 7 6 0)) (.invalidIndexSpec 7) ∧
      fails (decode (word5 .plus 0 0 6 46 0)) (.invalidArgument (.field 46)) ∧
      fails (decode (word5 .plus 0 0 6 8 0)) (.invalidArgument (.field 8)) ∧
      answers (decode (word5 .plus 0 0 6 45 8)) (.lda ⟨0, some .i6, ⟨5, 5⟩⟩) ∧
      fails (decode (word5 .plus 0 0 6 45 34)) (.unknownOpCode 34) := by decide

theorem witness_PackAndUnpackAreInverse : pack (unpack (2 ^ 31 - 1)) = 2 ^ 31 - 1 ∧ pack (unpack 0) = 0 := by decide

/-- A machine about to run `LDA 100(0:5)` at the last address, with `[-, 1, 2, 3, 4, 5]` at 100. -/
def atEnd : State := { machine [(100, n5), (3999, word5 .plus 1 36 0 5 8)] with pc := 3999 }

theorem witness_StepRunsTheDecodedInstruction :
    atEnd.status = .running ∧ atEnd.pc < 4000 ∧ decode (atEnd.mem.get atEnd.pc) = .ok (.lda (at_ 100 0 5)) :=
  ⟨rfl, by decide, rfl⟩

theorem witness_FetchDecodeAndDispatchFaults :
    (State.reset.status = .running ∧ State.reset.pc < 4000) ∧
      ({ State.reset with pc := 4000 } : State).status = .running ∧
      7 ≤ ((machine [(0, word5 .plus 0 0 7 5 8)]).mem.get 0 |>.byteAt 3).val ∧
      ¬ (decodeField ((word5 .plus 0 0 6 46 8).byteAt 4).val).ValidFor 5 ∧
      (decodeField ((word5 .plus 0 0 6 45 34).byteAt 4).val).ValidFor 5 ∧
      34 ≤ ((word5 .plus 0 0 6 45 34).byteAt 5).val ∧ ((word5 .plus 0 0 6 45 7).byteAt 5).val ≤ 7 ∧
      (State.reset.mem.get 0 |>.byteAt 5).val = 0 := by decide

theorem witness_AFaultedMachineHasNoStep :
    (after State.reset).status = .faulted (.unknownOpCode 0) 0 ∧
      step (after State.reset) = .fault (.stopped (.unknownOpCode 0) 0) := ⟨by decide, rfl⟩

theorem witness_AFaultingStepWritesNothing :
    step State.reset = .next (after State.reset) ∧ (after State.reset).status ≠ .running := ⟨rfl, by decide⟩

theorem witness_ACompletedStepAdvancesThePcByOne :
    fetch atEnd = .ok (word5 .plus 1 36 0 5 8) ∧
      decodeFields (word5 .plus 1 36 0 5 8) = .ok ⟨at_ 100 0 5, 8⟩ ∧ step atEnd = .next (after atEnd) ∧
      (after atEnd).status = .running ∧ (after atEnd).pc = 4000 := ⟨rfl, rfl, rfl, by decide, by decide⟩

/-- A step of a well-formed state that completes, and one that faults. -/
theorem witness_EveryStepKeepsTheStateWellFormed :
    StateWf atEnd ∧ step atEnd = .next (after atEnd) ∧
      StateWf State.reset ∧ step State.reset = .next (after State.reset) :=
  ⟨⟨by decide, by decide, by decide, by decide, trivial⟩, rfl,
    ⟨by decide, by decide, by decide, by decide, trivial⟩, rfl⟩

theorem witness_EveryRunEndsInAFault :
    State.reset.status = .running ∧ ({ State.reset with pc := 4000 } : State).status = .running := by decide

/-- A state with the overflow bit On, and an instruction outside Arithmetic that runs. -/
theorem witness_TheOverflowBitIsSticky :
    (let s : State := { atEnd with ov := .on }; s.ov = .on ∧ step s = .next (after s)) ∧
      exec (.lda (at_ 100 0 5)) atEnd = .next (execAfter (.lda (at_ 100 0 5)) atEnd) ∧
      Claims.isArithmetic (.lda (at_ 100 0 5)) = false := ⟨⟨rfl, rfl⟩, rfl, rfl⟩

theorem witness_NoInstructionWritesRJOrTheComparisonIndicator :
    exec (.stj (at_ 100 0 2)) atEnd = .next (execAfter (.stj (at_ 100 0 2)) atEnd) := rfl

theorem witness_OnlyStoresWriteMemory :
    (exec (.stz (at_ 100 0 5)) atEnd = .next (execAfter (.stz (at_ 100 0 5)) atEnd) ∧
        Claims.isStore (.stz (at_ 100 0 5)) = true ∧ (execAfter (.stz (at_ 100 0 5)) atEnd).mem ≠ atEnd.mem) ∧
      exec (.add (at_ 100 0 5)) atEnd = .next (execAfter (.add (at_ 100 0 5)) atEnd) ∧
      Claims.isStore (.add (at_ 100 0 5)) = false := ⟨⟨rfl, rfl, by decide⟩, rfl, rfl⟩

/-- Another memory that agrees at the effective address. -/
theorem witness_AnInstructionReadsOneMemoryWord :
    (let m : Memory := [(7, p5), (100, n5)];
      m.get (effectiveAddress (at_ 100 0 5) atEnd).toNat = atEnd.mem.get (effectiveAddress (at_ 100 0 5) atEnd).toNat) ∧
      exec (.lda (at_ 100 0 5)) atEnd = .next (execAfter (.lda (at_ 100 0 5)) atEnd) := ⟨by decide, rfl⟩

/-- Effective addresses at both ends of memory, through an index register and not, and fields at both ends. -/
theorem witness_reaches :
    Claims.Reaches (at_ 0 0 0) atEnd ∧ Claims.Reaches (at_ 3999 5 5) atEnd ∧ Claims.Reaches (at_ 100 0 5) atEnd ∧
      Claims.Reaches ⟨4000, some .i3, ⟨1, 5⟩⟩ { atEnd with rI3 := word2 .minus 0 1 } := by decide

theorem witness_LdaLdxLoadTheField : Claims.Reaches (at_ 100 0 5) atEnd := witness_reaches.2.2.1

theorem witness_LoadIndexLoadsTheNarrowedField : Claims.Reaches (at_ 100 0 5) atEnd := witness_reaches.2.2.1

theorem witness_LdanLdxnNegateTheSignTheFieldHolds : Claims.Reaches (at_ 0 0 0) atEnd := witness_reaches.1

theorem witness_LoadIndexNegativeNegatesTheSignTheFieldHolds : Claims.Reaches (at_ 3999 5 5) atEnd :=
  witness_reaches.2.1

theorem witness_StaStxStoreIntoTheFieldOnly : Claims.Reaches (at_ 3999 5 5) atEnd := witness_reaches.2.1

/-- A field of no byte, and one of two. -/
theorem witness_HalfWordStoresStoreIntoTheFieldOnly :
    (Claims.Reaches (at_ 0 0 0) atEnd ∧ Claims.count ⟨0, 0⟩ ≤ 2) ∧
      Claims.Reaches (at_ 3999 4 5) atEnd ∧ Claims.count ⟨4, 5⟩ ≤ 2 := by decide

theorem witness_StzStoresZeroIntoTheFieldOnly : Claims.Reaches (at_ 100 0 5) atEnd := witness_reaches.2.2.1

/-- A-3: the largest result that fits; and a negative one. -/
theorem witness_AddSubStoreTheExactResult :
    (let s : State := { machine [(500, word5 .plus 0 0 0 0 1)] with rA := word5 .plus 63 63 63 63 62 };
      let t := Claims.number s.rA ⟨0, 5⟩ + Claims.number (Claims.operand (at_ 500 0 5) s) ⟨0, 5⟩;
      Claims.Reaches (at_ 500 0 5) s ∧ t ≠ 0 ∧ t.natAbs = 1073741823) ∧
    (let s : State := machine [(500, word5 .plus 0 0 0 0 5)];
      let t := Claims.number s.rA ⟨0, 5⟩ - Claims.number (Claims.operand (at_ 500 0 5) s) ⟨0, 5⟩;
      Claims.Reaches (at_ 500 0 5) s ∧ t = -5) := by decide

/-- A-1 and A-10: the smallest and the largest result that does not fit. -/
theorem witness_AddSubOverflowWrapsAndSetsTheBit :
    (let s : State := { machine [(500, word5 .plus 0 0 0 0 1)] with rA := max5 };
      let t := Claims.number s.rA ⟨0, 5⟩ + Claims.number (Claims.operand (at_ 500 0 5) s) ⟨0, 5⟩;
      Claims.Reaches (at_ 500 0 5) s ∧ t.natAbs = 1073741824) ∧
    (let s : State := { machine [(500, max5)] with rA := max5.withSign .minus };
      let t := Claims.number s.rA ⟨1, 5⟩ + Claims.number (Claims.operand (at_ 500 1 5) s) ⟨1, 5⟩;
      Claims.Reaches (at_ 500 1 5) s ∧ t = 2147483646) := by decide

/-- A-5 and A-6. -/
theorem witness_AddSubZeroResultIsPositiveZero :
    (let s : State := { machine [(500, word5 .plus 0 0 0 0 5)] with rA := word5 .minus 0 0 0 0 5 };
      Claims.Reaches (at_ 500 0 5) s ∧
        Claims.number s.rA ⟨0, 5⟩ + Claims.number (Claims.operand (at_ 500 0 5) s) ⟨0, 5⟩ = 0) ∧
    (let s : State := { machine [(500, word5 .minus 0 0 0 0 0)] with rA := word5 .minus 0 0 0 0 0 };
      Claims.Reaches (at_ 500 0 5) s ∧
        Claims.number s.rA ⟨0, 5⟩ - Claims.number (Claims.operand (at_ 500 0 5) s) ⟨0, 5⟩ = 0) := by decide

theorem witness_OnlyFiveByteFieldsOverflow :
    let s : State := { machine [(500, word5 .plus 0 0 0 0 1)] with rA := max5 };
    let i : Instr := .add (at_ 500 1 5);
    i ∈ [Instr.add (at_ 500 1 5), .sub (at_ 500 1 5)] ∧ exec i s = .next (execAfter i s) ∧ s.ov = .off ∧
      (execAfter i s).ov = .on := ⟨by decide, rfl, by decide, by decide⟩

/-- A field of three bytes at an address that exists, and one of five at an address that does not. -/
theorem witness_HalfWordStoresOfWideFieldsFault :
    ((FieldSpec.mk 0 3).ValidFor 5 ∧ 2 < Claims.count ⟨0, 3⟩ ∧ Instr.st1 (at_ 100 0 3) ∈ Claims.halfStores (at_ 100 0 3)) ∧
      (FieldSpec.mk 0 5).ValidFor 5 ∧ 2 < Claims.count ⟨0, 5⟩ ∧
      Instr.st6 (at_ 4000 0 5) ∈ Claims.halfStores (at_ 4000 0 5) := by decide

/-- The addresses -1 and 4000, for an instruction without a count check and for a half-word Store that passes it. -/
theorem witness_AnAddressOutsideMemoryFaults :
    ((at_ (-1) 0 5).field.ValidFor 5 ∧ effectiveAddress (at_ (-1) 0 5) atEnd < 0 ∧
        Instr.lda (at_ (-1) 0 5) ∉ Claims.halfStores (at_ (-1) 0 5)) ∧
      (at_ 4000 4 5).field.ValidFor 5 ∧ 4000 ≤ effectiveAddress (at_ 4000 4 5) atEnd ∧
      Instr.st2 (at_ 4000 4 5) ∈ Claims.halfStores (at_ 4000 4 5) ∧ Claims.count (at_ 4000 4 5).field ≤ 2 := by decide

theorem witness_LoadAfterStoreReturnsTheRegister : Claims.Reaches (at_ 100 0 5) atEnd := witness_reaches.2.2.1

theorem witness_IndexRegisterAccessorsAreBounded :
    answers (setIndexRegister 1 (word2 .minus 1 2) State.reset) { State.reset with rI1 := word2 .minus 1 2 } ∧
      answers (setIndexRegister 6 (word2 .minus 1 2) State.reset) { State.reset with rI6 := word2 .minus 1 2 } ∧
      fails (setIndexRegister 0 (word2 .minus 1 2) State.reset) (.indexError 0) ∧
      fails (setIndexRegister 7 (word2 .minus 1 2) State.reset) (.indexError 7) := by decide

theorem witness_MemoryAndAccumulatorAccessors :
    answers (setMemoryCell 0 n5 State.reset) { State.reset with mem := [(0, n5)] } ∧
      answers (setMemoryCell 3999 n5 State.reset) { State.reset with mem := [(3999, n5)] } ∧
      fails (setMemoryCell (-1) n5 State.reset) (.indexError (-1)) ∧
      fails (setMemoryCell 4000 n5 State.reset) (.indexError 4000) := by decide

/-- One word, the longest program that fits, and one word more. -/
theorem witness_TheLoaderPlacesWordsFromAddressZero :
    ([n5] ≠ [] ∧ [n5].length ≤ 4000) ∧ (List.replicate 4000 n5).length ≤ 4000 ∧
      ¬ (List.replicate 4001 n5).length ≤ 4000 := by
  simp only [List.length_replicate]; decide

/-- A byte code: byte b as the character of number 64 + b. -/
def letters : ByteCharCode where
  char b := Char.ofNatAux (64 + b.val) (Or.inl (by omega))
  injective a b h := by
    have := congrArg Char.toNat h
    simp only [Char.toNat, Char.ofNatAux] at this
    exact Fin.ext (by simpa [UInt32.toNat] using this)
  noPlus := by decide
  noMinus := by decide

theorem witness_AWordIsWrittenAsSignAndBytes :
    writeWord letters n5 = ['-', 'A', 'B', 'C', 'D', 'E'] ∧
      writeWords letters [word2 .plus 0 63] = ['+', '@', Char.ofNat 127] := by decide

/-- A whole word, a bad sign, a word cut short and an empty input. -/
theorem witness_ReadingMirrorsWritingAndMarksFailures :
    readWord letters 2 ['-', 'A', 'B', '+'] = (⟨.minus, #v[.byte 1, .byte 2]⟩, ['+']) ∧
      (readWord letters 2 ['x', 'A', 'B']).1 = ⟨.invalid, #v[.byte 1, .byte 2]⟩ ∧
      (readWord letters 2 ['+', 'A']).1 = ⟨.plus, #v[.byte 1, .sentinel]⟩ ∧
      (readWord letters 2 []).1 = ⟨.invalid, #v[.sentinel, .sentinel]⟩ ∧
      ¬ textValid (⟨.plus, #v[.byte 1, .byte 1, .byte 1, .byte 1, .sentinel]⟩ : TextWord 5) ∧
      ¬ textValid (⟨.invalid, #v[.byte 1, .byte 1, .byte 1, .byte 1, .byte 1]⟩ : TextWord 5) := by decide

end Sys2Proof.Tests
end

section
/-! Settles O54. What the text reader answers for each sign and byte character, what it marks where a character is
missing or no sign, and what the loader does with a word that is not valid (R23, R125, R313 to R315). -/

namespace Sys2Proof.Machine

section

variable {n : Nat}

/-! The sign. -/

@[simp] theorem readTextSign_signChar (w : Word n) (cs : List Char) :
    readTextSign (signChar w.sign :: cs) = (textOf w).sign := by
  obtain ⟨s, b⟩ := w
  cases s <;> rfl

theorem readTextSign_cons_eq_invalid {c : Char} (hplus : c ≠ '+') (hminus : c ≠ '-') (cs : List Char) :
    readTextSign (c :: cs) = .invalid := by
  simp [readTextSign, signOfChar, hplus, hminus]

/-! The bytes. -/

/-- The byte found for a byte's own character is that byte, because the code is injective (R316). -/
@[simp] theorem readTextByte_char (code : ByteCharCode) (b : Byte) : readTextByte code (code.char b) = .byte b := by
  unfold readTextByte
  split
  · next a ha =>
    have hchar : code.char a = code.char b := by simpa using List.find?_some ha
    rw [code.injective a b hchar]
  · next hnone =>
    have hb := List.find?_eq_none.mp hnone b (List.mem_finRange b)
    simp at hb

theorem readWord_byte {code : ByteCharCode} {input : List Char} {j : Nat} {c : Char} (hj : j < n)
    (hc : input[j + 1]? = some c) : (readWord code n input).1.bytes[j] = readTextByte code c := by
  simp [readWord, hc]

theorem readWord_byte_missing {code : ByteCharCode} {input : List Char} {j : Nat} (hj : j < n)
    (hlen : input.length ≤ j + 1) : (readWord code n input).1.bytes[j] = .sentinel := by
  simp [readWord, List.getElem?_eq_none hlen]

@[simp] theorem readWord_sign (code : ByteCharCode) (input : List Char) :
    (readWord code n input).1.sign = readTextSign input := rfl

@[simp] theorem readWord_rest (code : ByteCharCode) (input : List Char) :
    (readWord code n input).2 = input.drop (n + 1) := rfl

/-! Valid words (R23). -/

@[simp] theorem textOf_byte (w : Word n) {j : Nat} (hj : j < n) : (textOf w).bytes[j] = .byte w.bytes[j] := by
  simp [textOf]

theorem textOf_sign_ne_invalid (w : Word n) : (textOf w).sign ≠ .invalid := by
  obtain ⟨s, b⟩ := w
  cases s <;> simp [textOf]

theorem liveSign_textOf (w : Word n) : liveSign (textOf w).sign = some w.sign := by
  obtain ⟨s, b⟩ := w
  cases s <;> rfl

theorem textValid_textOf (w : Word n) : textValid (textOf w) := by
  refine ⟨textOf_sign_ne_invalid w, fun b hb => ?_⟩
  obtain ⟨j, hj, rfl⟩ := Vector.mem_iff_getElem.mp (Vector.mem_toList_iff.mp hb)
  simp

theorem not_textValid_of_sign {w : TextWord n} (h : w.sign = .invalid) : ¬ textValid w :=
  fun hv => hv.1 h

theorem not_textValid_of_sentinel {w : TextWord n} {j : Nat} (hj : j < n) (h : w.bytes[j] = .sentinel) :
    ¬ textValid w :=
  fun hv => hv.2 w.bytes[j] (Vector.mem_toList_iff.mpr (Vector.getElem_mem hj)) h

theorem liveWord_textOf (w : Word n) : liveWord (textOf w) = some w := by
  unfold liveWord
  rw [if_pos (textValid_textOf w), liveSign_textOf]
  have hbytes : (Vector.ofFn fun k : Fin n => (liveByte (textOf w).bytes[k]).getD 0) = w.bytes := by
    ext j hj
    simp [liveByte]
  rw [hbytes]
  rfl

theorem liveWord_eq_none {w : TextWord n} (h : ¬ textValid w) : liveWord w = none := if_neg h

/-! Reading what was written (R315). -/

theorem textWord_eq {w v : TextWord n} (hsign : w.sign = v.sign) (hbytes : w.bytes = v.bytes) : w = v := by
  cases w
  cases v
  cases hsign
  cases hbytes
  rfl

@[simp] theorem writeWord_length (code : ByteCharCode) (w : Word n) : (writeWord code w).length = n + 1 := by
  simp [writeWord]

/-- Character `j + 1` of a written word, with anything after it, is the character of its `j`-th byte. -/
theorem writeWord_append_getElem? (code : ByteCharCode) (w : Word n) (rest : List Char) {j : Nat} (hj : j < n) :
    (writeWord code w ++ rest)[j + 1]? = some (code.char w.bytes[j]) := by
  rw [List.getElem?_append_left (by simpa using hj)]
  simp [writeWord, hj]

theorem readWord_writeWord_append (code : ByteCharCode) (w : Word n) (rest : List Char) :
    readWord code n (writeWord code w ++ rest) = (textOf w, rest) := by
  have hsign : (readWord code n (writeWord code w ++ rest)).1.sign = (textOf w).sign :=
    readTextSign_signChar w (w.bytes.toList.map code.char ++ rest)
  have hbytes : (readWord code n (writeWord code w ++ rest)).1.bytes = (textOf w).bytes := by
    ext1 j hj
    rw [readWord_byte hj (writeWord_append_getElem? code w rest hj), readTextByte_char, textOf_byte]
  have hrest : (readWord code n (writeWord code w ++ rest)).2 = rest :=
    List.drop_left' (writeWord_length code w)
  exact Prod.ext (textWord_eq hsign hbytes) hrest

/-! The loader. -/

theorem loadWordsFrom_of_not_textValid {w : TextWord 5} (h : ¬ textValid w) (a : Nat) (ws : List (TextWord 5))
    (s : State) : loadWordsFrom a (w :: ws) s = (s, some (.raised (.invalidWord w))) := by
  simp only [loadWordsFrom, liveWord_eq_none h]

end

/-- Settles O54: the round trip byte by byte, then each marked failure by the part of the word that is bad. -/
theorem readingMirrorsWritingAndMarksFailures : Obligations.ReadingMirrorsWritingAndMarksFailures := by
  intro code n
  refine ⟨fun w rest => ⟨readWord_writeWord_append code w rest, textValid_textOf w, liveWord_textOf w⟩,
    fun c rest hplus hminus => ?badSign, fun c rest _ hlen => ?missing,
    fun a w ws s hw => loadWordsFrom_of_not_textValid hw a ws s⟩
  case badSign =>
    have hsign : (readWord code n (c :: rest)).1.sign = .invalid := readTextSign_cons_eq_invalid hplus hminus rest
    exact ⟨hsign, not_textValid_of_sign hsign⟩
  case missing =>
    have hsentinel : ∀ j (hj : j < n), rest.length ≤ j → (readWord code n (c :: rest)).1.bytes[j] = .sentinel :=
      fun j hj hle => readWord_byte_missing hj (Nat.succ_le_succ hle)
    exact ⟨hsentinel, not_textValid_of_sentinel hlen (hsentinel rest.length hlen le_rfl)⟩

end Sys2Proof.Machine
end

section
/-! Settles O13. Read after write at one address, and the frame over every other address, existing or not (R60 to R62). -/

namespace Sys2Proof.Machine

/-- The bounds of R61 and R62, in the spec's spelling. -/
theorem addressExists_iff {a : Int} : addressExists a ↔ 0 ≤ a ∧ a < 4000 :=
  and_congr_right fun h => Int.toNat_lt h

/-- A word written at an address that exists is read back there. -/
theorem memRead_set_same {a : Int} (ha : addressExists a) (m : Memory) (w : Word 5) :
    memRead (m.set a.toNat w) a = .ok w := by
  rw [memRead_ok ha, Memory.get_set, if_pos rfl]

/-- The frame of a write: `b` need not exist, and then both reads fail alike. -/
theorem memRead_set_of_ne {a b : Int} (ha : addressExists a) (hne : b ≠ a) (m : Memory) (w : Word 5) :
    memRead (m.set a.toNat w) b = memRead m b := by
  by_cases hb : addressExists b
  · have hcell : b.toNat ≠ a.toNat := fun h =>
      hne (by rw [← Int.toNat_of_nonneg hb.1, h, Int.toNat_of_nonneg ha.1])
    rw [memRead_ok hb, memRead_ok hb, Memory.get_set, if_neg hcell]
  · rw [memRead_error hb, memRead_error hb]

/-- Settles O13: by whether the address exists; the frame is that of `Memory.set`. -/
theorem readAfterWriteAndAddressBounds : Obligations.ReadAfterWriteAndAddressBounds := by
  intro m a w
  split
  case isTrue h =>
    have ha : addressExists a := addressExists_iff.2 h
    exact ⟨memRead_ok ha, m.set a.toNat w, memWrite_ok ha, memRead_set_same ha m w,
      fun b hne => memRead_set_of_ne ha hne m w⟩
  case isFalse h =>
    have ha : ¬ addressExists a := mt addressExists_iff.1 h
    exact ⟨memRead_error ha, memWrite_error ha⟩

end Sys2Proof.Machine
end

section
/-! Settles O1. The two directions of the field codec undo each other, and each as far as its arithmetic reaches:
every number is the code of what it decodes to, and a field comes back from its code if `right` is a base-8 digit (R85,
R86, R89). -/

namespace Sys2Proof

/-- R85: a byte decodes to two base-8 digits. -/
theorem decodeField_le_seven {e : Nat} (he : e < 64) : (decodeField e).left ≤ 7 ∧ (decodeField e).right ≤ 7 :=
  ⟨Nat.le_of_lt_succ (Nat.div_lt_of_lt_mul he), Nat.le_of_lt_succ (Nat.mod_lt e (by decide))⟩

@[simp] theorem encodeField_decodeField (e : Nat) : encodeField (decodeField e) = e := Nat.mod_add_div' e 8

theorem decodeField_encodeField {f : FieldSpec} (h : f.right < 8) : decodeField (encodeField f) = f := by
  obtain ⟨left, right⟩ := f
  have hleft : (right + left * 8) / 8 = left := by
    rw [Nat.add_mul_div_right _ _ (by decide), Nat.div_eq_of_lt h, Nat.zero_add]
  have hright : (right + left * 8) % 8 = right := by rw [Nat.add_mul_mod_self_right, Nat.mod_eq_of_lt h]
  exact congrArg₂ FieldSpec.mk hleft hright

/-- Settles O1: a field valid for five bytes has `right ≤ 5`, so it is among those its code gives back. -/
theorem fieldCodecIsABijection : Obligations.FieldCodecIsABijection :=
  ⟨fun _ => ⟨rfl, decodeField_le_seven⟩, fun _ => rfl,
    fun _ hf => decodeField_encodeField (Nat.lt_of_le_of_lt hf.2 (by decide)),
    fun e _ => encodeField_decodeField e, rfl, rfl, rfl⟩

end Sys2Proof
end

section
/-! Settles O15 and O16. What a word that decodes says about its address and its index register (R81, R82). -/

namespace Sys2Proof

open Machine

/-- The inversion of `decodeFields`: each part of the answer from the bytes it stands in (R90). -/
theorem decodeFields_eq_ok {w : Word 5} {d : Decoded} (h : decodeFields w = .ok d) :
    d.operands.address = spanValue w 0 2 ∧ decodeIndex (w.byteAt 3).val = .ok d.operands.index ∧
      decodeFieldSpec (w.byteAt 4).val = .ok d.operands.field ∧ d.opCode = w.byteAt 5 := by
  rcases decodeFields_cases w with ⟨x, hx, hf, he⟩ | ⟨-, he⟩ | ⟨-, -, he⟩
  · rw [he] at h
    cases h
    exact ⟨rfl, hx, if_pos hf, rfl⟩
  · rw [he] at h; cases h
  · rw [he] at h; cases h

/-! The address. -/

theorem spanMag_two {n : Nat} (w : Word n) (lo : Nat) :
    spanMag w lo 2 = (w.byteAt lo).val * 64 + (w.byteAt (lo + 1)).val := by
  simp [spanMag]

/-- `to_int` of the sign and the first two bytes, as R81 writes it. -/
theorem spanValue_zero_two {n : Nat} (w : Word n) :
    spanValue w 0 2 =
      (if w.sign = .minus then -1 else 1) * ((w.byteAt 1).val * 64 + (w.byteAt 2).val : Int) := by
  have hmag : (spanMag w 1 2 : Int) = (w.byteAt 1).val * 64 + (w.byteAt 2).val := by
    rw [spanMag_two, Nat.cast_add, Nat.cast_mul, Nat.cast_ofNat]
  have hvalue : spanValue w 0 2 = if w.sign = .minus then -(spanMag w 1 2 : Int) else spanMag w 1 2 := by
    simp [spanValue]
  rw [hvalue, hmag, ite_mul, neg_one_mul, one_mul]

/-- Settles O15: the address is the value of the sign and bytes 1 and 2; a zero magnitude has no negative. -/
theorem addressIsSignAndTwoBytes : Obligations.AddressIsSignAndTwoBytes := by
  intro w d h
  obtain ⟨haddress, -, -, -⟩ := decodeFields_eq_ok h
  obtain ⟨hlow, hhigh⟩ := spanValue_two_bounds w
  rw [haddress]
  refine ⟨spanValue_zero_two w, hlow, hhigh, fun h1 h2 => ?_⟩
  rw [spanValue_zero_two, h1, h2]
  exact mul_zero _

/-! The index specification. -/

/-- The table of R82: what `decodeIndex` answers, and for which byte. -/
theorem decodeIndex_eq_ok {i : Nat} {x : Option IndexReg} (h : decodeIndex i = .ok x) :
    (i, x) ∈ [(0, none), (1, some IndexReg.i1), (2, some .i2), (3, some .i3), (4, some .i4), (5, some .i5),
      (6, some .i6)] := by
  match i with
  | 0 | 1 | 2 | 3 | 4 | 5 | 6 =>
    cases h
    decide
  | _ + 7 => cases h

/-- The index specification is checked before the field, so a bad one is the fault reported whatever byte 4 holds. -/
theorem decodeFields_badIndex {w : Word 5} (h : 7 ≤ (w.byteAt 3).val) :
    decodeFields w = .error (.invalidIndexSpec (w.byteAt 3).val) := by
  rcases decodeIndex_cases (w.byteAt 3).val with ⟨hle, -⟩ | ⟨-, hx⟩
  · omega
  · simp only [decodeFields, hx, bind_error]

/-- Settles O16: a word whose index byte is bad never decodes, and one that decodes has its byte in the table of R82. -/
theorem indexByteSelectsTheIndexRegister : Obligations.IndexByteSelectsTheIndexRegister := by
  intro w
  refine ⟨decodeFields_badIndex, fun d h => ?_⟩
  obtain ⟨-, hindex, -, -⟩ := decodeFields_eq_ok h
  exact decodeIndex_eq_ok hindex

end Sys2Proof
end

section
/-! Settles O3 and O4. One byte, and the sign: what is replaced and what stays (R110 to R112). -/

namespace Sys2Proof.Machine

variable {n : Nat}

theorem readByte_ok {i : Int} (h : 1 ≤ i ∧ i ≤ n) (w : Word n) : readByte w i = .ok (w.byteAt i.toNat) := if_pos h

theorem readByte_error {i : Int} (h : ¬ (1 ≤ i ∧ i ≤ n)) (w : Word n) : readByte w i = .error (.indexError i) :=
  if_neg h

theorem writeByte_ok {i : Int} (h : 1 ≤ i ∧ i ≤ n) (w : Word n) (v : Byte) :
    writeByte w i v = .ok (putByte w i.toNat v) := if_pos h

theorem writeByte_error {i : Int} (h : ¬ (1 ≤ i ∧ i ≤ n)) (w : Word n) (v : Byte) :
    writeByte w i v = .error (.indexError i) := if_neg h

@[simp] theorem putByte_sign (w : Word n) (i : Nat) (v : Byte) : (putByte w i v).sign = w.sign := rfl

/-- Read after write: byte `i` is the new one, and the frame is every other position, inside the word or not. -/
theorem putByte_byteAt {i : Nat} (h1 : 1 ≤ i) (hn : i ≤ n) (w : Word n) (v : Byte) (j : Nat) :
    (putByte w i v).byteAt j = if j = i then v else w.byteAt j := by
  by_cases hj : 1 ≤ j ∧ j ≤ n
  · exact Word.byteAt_build _ _ hj.1 hj.2
  · rw [Word.byteAt_out _ (by omega), Word.byteAt_out w (by omega), if_neg (by omega)]

/-- Settles O3: by whether the position is one of 1..N. -/
theorem byteAccessIsBounded : Obligations.ByteAccessIsBounded := by
  intro n w i v
  split
  case isTrue h =>
    refine ⟨readByte_ok h w, putByte w i.toNat v, writeByte_ok h w v, putByte_sign w i.toNat v, fun j => ?_⟩
    have hpos : j = i.toNat ↔ (j : Int) = i := by omega
    rw [putByte_byteAt (by omega) (by omega) w v j, if_congr hpos rfl rfl]
  case isFalse h => exact ⟨readByte_error h w, writeByte_error h w v⟩

theorem negateWord_eq (w : Word n) : negateWord w = { w with sign := w.sign.neg } := rfl

/-- Settles O4: a sign write by the sign given, negation by the sign the word has. -/
theorem signWriteAndNegation : Obligations.SignWriteAndNegation := by
  intro n w
  have hnegate {s : Sign} (h : w.sign = s) : negateWord w = { w with sign := s.neg } := by rw [negateWord_eq, h]
  exact ⟨rfl, rfl, ⟨none, rfl⟩, hnegate, hnegate⟩

end Sys2Proof.Machine
end

section
/-! Settles O5. The left shift: since every byte past the end of a word reads 0, byte `i` of the result is byte `i + k`
of the word for every `i` from 1 on, and zero fill is a special case (R114). -/

namespace Sys2Proof.Machine

variable {n : Nat}

theorem leftShift_error {k : Int} (h : k < 0) (w : Word n) : leftShift w k = .error (.invalidArgument (.shift k)) :=
  if_pos h

/-- What `leftShift` answers: the sign kept, and the bytes `k` positions further on. -/
theorem leftShift_spec {w r : Word n} {k : Nat} (h : leftShift w k = .ok r) :
    r.sign = w.sign ∧ ∀ i, 1 ≤ i → r.byteAt i = w.byteAt (i + k) := by
  rw [leftShift_ok] at h
  cases h
  refine ⟨rfl, fun i h1 => ?_⟩
  by_cases hi : i ≤ n
  · rw [Word.byteAt_build _ _ h1 hi]
    split
    · rfl
    · exact (Word.byteAt_out w (by omega)).symm
  · rw [Word.byteAt_out _ (by omega), Word.byteAt_out w (by omega)]

/-- Settles O5: by the sign of the amount; what comes from beyond byte N is 0. -/
theorem leftShiftMovesBytesTowardByteOne : Obligations.LeftShiftMovesBytesTowardByteOne := by
  intro n w k
  split
  case isTrue h => exact leftShift_error h w
  case isFalse h =>
    obtain ⟨k, rfl⟩ := Int.eq_ofNat_of_zero_le (Int.not_lt.1 h)
    obtain ⟨hsign, hbytes⟩ := leftShift_spec (leftShift_ok (w := w) (k := k))
    refine ⟨_, leftShift_ok, hsign, fun i h1 _ => ?_, fun hk i => ?_⟩
    · rw [hbytes i h1, Int.toNat_natCast]
      split
      · rfl
      · exact Word.byteAt_out w (by omega)
    · by_cases h0 : i = 0
      · exact Word.byteAt_out _ (.inl h0)
      · rw [hbytes i (by omega), Word.byteAt_out w (by omega)]

end Sys2Proof.Machine
end

section
/-! Settles O7. The rotations: `n - k % n` stands for `-k` modulo N, so both read the word at an offset modulo N, and
the two offsets add up to a multiple of N (R115, R116). -/

namespace Sys2Proof.Machine

variable {n : Nat}

/-! The offsets. -/

/-- The offset of a right rotation and that of the left one by the same amount make up whole turns. -/
theorem sub_mod_add_self (hn : 0 < n) (k : Nat) : n - k % n + k = n * (k / n + 1) := by
  have hdiv := Nat.div_add_mod k n
  have hlt := Nat.mod_lt k hn
  rw [Nat.mul_succ]
  omega

theorem toNat_add_emod (j k : Nat) : (((j : Int) + k) % n).toNat = (j + k) % n := by
  rw [← Int.natCast_add, ← Int.natCast_emod, Int.toNat_natCast]

theorem toNat_sub_emod (hn : 0 < n) (j k : Nat) : (((j : Int) - k) % n).toNat = (j + (n - k % n)) % n := by
  have hturns : ((j + (n - k % n) : Nat) : Int) = (j - k) + n * (k / n + 1 : Nat) := by
    rw [← Int.natCast_mul, ← sub_mod_add_self hn k]
    omega
  rw [← Int.add_mul_emod_self_left, ← hturns, ← Int.natCast_emod, Int.toNat_natCast]

/-- An offset moved on by a right rotation and then by the left one is where it was. -/
theorem mod_add_sub_mod_add_mod {j : Nat} (hj : j < n) (k : Nat) : ((j + (n - k % n)) % n + k) % n = j := by
  rw [Nat.mod_add_mod, Nat.add_assoc, sub_mod_add_self (by omega) k, Nat.add_mul_mod_self_left, Nat.mod_eq_of_lt hj]

/-! What the rotations answer. -/

theorem rotateRight_error {k : Int} (h : k < 0) (w : Word n) :
    rotateRight w k = .error (.invalidArgument (.rotate k)) := if_pos h

theorem rotateLeft_error {k : Int} (h : k < 0) (w : Word n) :
    rotateLeft w k = .error (.invalidArgument (.rotate k)) := if_pos h

/-- What `rotateRight` answers, for a byte numbered from 0. -/
theorem rotateRight_spec (w : Word n) (k : Nat) :
    ∃ r, rotateRight w k = .ok r ∧ r.sign = w.sign ∧
      ∀ j, j < n → r.byteAt (j + 1) = w.byteAt ((j + (n - k % n)) % n + 1) :=
  ⟨_, if_neg (by omega), rfl, fun j hj => Word.byteAt_build _ _ (by omega) (by omega)⟩

/-- What `rotateLeft` answers, for a byte numbered from 0. -/
theorem rotateLeft_spec (w : Word n) (k : Nat) :
    ∃ l, rotateLeft w k = .ok l ∧ l.sign = w.sign ∧
      ∀ j, j < n → l.byteAt (j + 1) = w.byteAt ((j + k) % n + 1) := by
  refine ⟨_, if_neg (by omega), rfl, fun j hj => ?_⟩
  rw [Word.byteAt_build _ _ (by omega) (by omega), Nat.add_sub_cancel, Int.toNat_natCast, Nat.add_mod_mod]

/-- Two words are equal if their signs and their bytes, numbered from 0, are. -/
theorem ext_byteAt_succ {w v : Word n} (hs : w.sign = v.sign)
    (hb : ∀ j, j < n → w.byteAt (j + 1) = v.byteAt (j + 1)) : w = v :=
  Word.ext_byteAt hs fun i h1 hn => by
    obtain ⟨j, rfl⟩ := Nat.exists_eq_succ_of_ne_zero (Nat.one_le_iff_ne_zero.1 h1)
    exact hb j hn

theorem rotateRight_multiple {k : Nat} (hk : k % n = 0) (w : Word n) : rotateRight w k = .ok w := by
  obtain ⟨r, hr, hsign, hbytes⟩ := rotateRight_spec w k
  have hsame : r = w := ext_byteAt_succ hsign fun j hj => by
    rw [hbytes j hj, hk, Nat.sub_zero, Nat.add_mod_right, Nat.mod_eq_of_lt hj]
  rw [hr, hsame]

theorem rotateLeft_multiple {k : Nat} (hk : k % n = 0) (w : Word n) : rotateLeft w k = .ok w := by
  obtain ⟨l, hl, hsign, hbytes⟩ := rotateLeft_spec w k
  have hsame : l = w := ext_byteAt_succ hsign fun j hj => by
    rw [hbytes j hj, ← Nat.add_mod_mod, hk, Nat.add_zero j, Nat.mod_eq_of_lt hj]
  rw [hl, hsame]

/-- A right rotation undoes the left one by the same amount, whatever the amount. -/
theorem rotateRight_of_rotateLeft {w l : Word n} {k : Nat} (h : rotateLeft w k = .ok l) :
    rotateRight l k = .ok w := by
  obtain ⟨l', hl, hlsign, hlbytes⟩ := rotateLeft_spec w k
  obtain rfl : l = l' := Except.ok.inj (h.symm.trans hl)
  obtain ⟨r, hr, hrsign, hrbytes⟩ := rotateRight_spec l k
  have hback : r = w := ext_byteAt_succ (hrsign.trans hlsign) fun j hj => by
    rw [hrbytes j hj, hlbytes _ (Nat.mod_lt _ (by omega)), mod_add_sub_mod_add_mod hj k]
  rw [hr, hback]

/-- Settles O7: by the sign of the amount; the spec's integer offsets are the model's natural ones. -/
theorem rotationsPermuteBytesAndUndoEachOther : Obligations.RotationsPermuteBytesAndUndoEachOther := by
  intro n w k
  split
  case isTrue h => exact ⟨rotateRight_error h w, rotateLeft_error h w⟩
  case isFalse h =>
    obtain ⟨k, rfl⟩ := Int.eq_ofNat_of_zero_le (Int.not_lt.1 h)
    obtain ⟨r, hr, hrsign, hrbytes⟩ := rotateRight_spec w k
    obtain ⟨l, hl, hlsign, hlbytes⟩ := rotateLeft_spec w k
    have hpos {i : Nat} (h1 : 1 ≤ i) : ((i - 1 : Nat) : Int) = i - 1 ∧ i - 1 + 1 = i := by omega
    refine ⟨r, l, hr, hl, hrsign, hlsign, fun i h1 hn => ?right, fun i h1 hn => ?left, fun hk => ?multiple,
      fun _ => rotateRight_of_rotateLeft hl⟩
    case right =>
      obtain ⟨hcast, hsucc⟩ := hpos h1
      rw [← hcast, toNat_sub_emod (by omega), ← hrbytes (i - 1) (by omega), hsucc]
    case left =>
      obtain ⟨hcast, hsucc⟩ := hpos h1
      rw [← hcast, toNat_add_emod, ← hlbytes (i - 1) (by omega), hsucc]
    case multiple =>
      have hmod : k % n = 0 := by exact_mod_cast hk
      exact ⟨Except.ok.inj (hr.symm.trans (rotateRight_multiple hmod w)),
        Except.ok.inj (hl.symm.trans (rotateLeft_multiple hmod w))⟩

end Sys2Proof.Machine
end

section
/-! Settles O9. A copy range that does not fail is a field valid for N, so `copyRange_spec` says what it does (R118). -/

namespace Sys2Proof.Machine

variable {n : Nat}

theorem copyRange_error {first last : Int} (h : last < first ∨ first < 0 ∨ (n : Int) < last)
    (self source : Word n) : copyRange self source first last = .error (.invalidArgument (.range first last)) := if_pos h

/-- `firstByte` differs from `left` only by leaving out position 0, which is the sign's and no byte's. -/
theorem firstByte_le_iff {f : FieldSpec} {i : Nat} (h1 : 1 ≤ i) : f.firstByte ≤ i ↔ f.left ≤ i :=
  max_le_iff.trans (and_iff_left h1)

/-- Settles O9: by whether the range is malformed; a well-formed one is the field (first:last). -/
theorem copyRangeCopiesTheRangeOnly : Obligations.CopyRangeCopiesTheRangeOnly := by
  intro n self source first last
  split
  case isTrue h => exact copyRange_error h self source
  case isFalse h =>
    obtain ⟨left, rfl⟩ := Int.eq_ofNat_of_zero_le (show 0 ≤ first by omega)
    obtain ⟨right, rfl⟩ := Int.eq_ofNat_of_zero_le (show 0 ≤ last by omega)
    have hle : left ≤ right := by omega
    have hn : right ≤ n := by omega
    have hv : (FieldSpec.mk left right).ValidFor n := ⟨hle, hn⟩
    have hok := copyRange_ok (self := self) (source := source) hv
    obtain ⟨hsign, hbytes⟩ := copyRange_spec hv hok
    refine ⟨_, hok, ?_, fun i h1 _ => ?_⟩
    · rw [hsign, if_congr Int.natCast_eq_zero.symm rfl rfl]
    · rw [hbytes i, if_congr (and_congr ((firstByte_le_iff h1).trans Int.ofNat_le.symm) Int.ofNat_le.symm) rfl rfl]

end Sys2Proof.Machine
end

section
/-! Settles O10. The left alignment, beside the right one of `fieldAlignedRight_spec` (R119, R120). -/

namespace Sys2Proof.Machine

variable {n : Nat}

theorem fieldAlignedLeft_ok {w : Word n} {f : FieldSpec} (h : f.ValidFor n) :
    fieldAlignedLeft w f = .ok (.build n (fieldSign w f) fun i =>
      if i ≤ f.byteCount then w.byteAt (f.firstByte + (i - 1)) else 0) := if_pos h

/-- What `fieldAlignedLeft` answers for a valid field: the sign, the field's bytes at the left edge, zeros after. -/
theorem fieldAlignedLeft_spec {w c : Word n} {f : FieldSpec} (hv : f.ValidFor n) (h : fieldAlignedLeft w f = .ok c) :
    c.sign = fieldSign w f ∧ (∀ j, j < f.byteCount → c.byteAt (1 + j) = w.byteAt (f.firstByte + j)) ∧
      ∀ i, f.byteCount < i → c.byteAt i = 0 := by
  rw [fieldAlignedLeft_ok hv] at h
  cases h
  have hk := FieldSpec.byteCount_le hv
  refine ⟨rfl, fun j hj => ?_, fun i hi => ?_⟩
  · rw [Word.byteAt_build _ _ (by omega) (by omega), if_pos (by omega), Nat.add_sub_cancel_left]
  · by_cases hin : i ≤ n
    · rw [Word.byteAt_build _ _ (by omega) hin, if_neg (by omega)]
    · exact Word.byteAt_out _ (by omega)

/-- The spec's two spellings of the byte count of R88 agree on a valid field. -/
theorem claims_count_eq {f : FieldSpec} (hv : f.ValidFor n) : Claims.count f = f.byteCount :=
  (FieldSpec.byteCount_eq hv).symm

/-- Settles O10: the two alignments side by side. -/
theorem fieldAlignmentMovesTheFieldToTheEdge : Obligations.FieldAlignmentMovesTheFieldToTheEdge := by
  intro n w f hv
  obtain ⟨-, hrsign, hrbytes, hrzero⟩ := fieldAlignedRight_spec (fieldAlignedRight_ok (w := w) hv)
  obtain ⟨hlsign, hlbytes, hlzero⟩ := fieldAlignedLeft_spec hv (fieldAlignedLeft_ok (w := w) hv)
  rw [claims_count_eq hv]
  exact ⟨_, _, fieldAlignedRight_ok hv, fieldAlignedLeft_ok hv, hrsign, hlsign,
    fun j hj => ⟨hrbytes j hj, hlbytes j hj⟩, hrzero, hlzero⟩

end Sys2Proof.Machine
end

section
/-! Settles O12. Byte `j` of a word stands at `m - n + j` of the widened one, which is where narrowing back looks (R123,
R124). -/

namespace Sys2Proof.Machine

variable {n : Nat}

theorem widen_byteAt_add {m j : Nat} (h : n ≤ m) (w : Word n) (h1 : 1 ≤ j) (hj : j ≤ n) :
    (widen m w).byteAt (m - n + j) = w.byteAt j := by
  rw [widen_byteAt w (by omega) (by omega), if_neg (by omega), Nat.add_sub_cancel_left]

theorem narrow_widen {m : Nat} (h : n ≤ m) (w : Word n) : narrow n (widen m w) = w :=
  Word.ext_byteAt rfl fun j h1 hj => by rw [narrow_byteAt _ h1 hj, widen_byteAt_add h w h1 hj]

theorem narrow_self (w : Word n) : narrow n w = w :=
  Word.ext_byteAt rfl fun j h1 hj => by rw [narrow_byteAt w h1 hj, Nat.sub_self, Nat.zero_add]

theorem widen_self (w : Word n) : widen n w = w := by
  rw [← narrow_self (widen n w), narrow_widen le_rfl]

/-- Settles O12: the bytes of either conversion, then the round trip and the identity. -/
theorem wideningThenNarrowingIsTheIdentity : Obligations.WideningThenNarrowingIsTheIdentity := by
  intro n m w
  exact ⟨fun _ => ⟨narrow_sign m w, fun _ => narrow_byteAt w⟩,
    fun hnm => ⟨widen_sign m w, fun _ => widen_byteAt w, narrow_widen hnm w⟩, widen_self w, narrow_self w⟩

end Sys2Proof.Machine
end

section
/-! Settles O53. A written word is its sign character, then the character of each byte at the byte's own position; a
written sequence is the concatenation of its words' texts (R314). -/

namespace Sys2Proof.Machine

variable {n : Nat}

theorem signChar_eq (s : Sign) : signChar s = if s = .minus then '-' else '+' := by
  cases s <;> rfl

@[simp] theorem writeWord_head? (code : ByteCharCode) (w : Word n) :
    (writeWord code w).head? = some (signChar w.sign) := rfl

/-- Character `i` of a written word is that of byte `i`: the sign character takes position 0. -/
theorem writeWord_getElem? (code : ByteCharCode) (w : Word n) {i : Nat} (h1 : 1 ≤ i) (hi : i ≤ n) :
    (writeWord code w)[i]? = some (code.char (w.byteAt i)) := by
  obtain ⟨j, rfl⟩ := Nat.exists_eq_add_of_le' h1
  have hbyte : w.byteAt (j + 1) = w.bytes[j] := dif_pos ⟨h1, hi⟩
  rw [hbyte, ← writeWord_append_getElem? code w [] hi, List.append_nil]

@[simp] theorem writeWords_nil (code : ByteCharCode) : writeWords code ([] : List (Word n)) = [] := rfl

@[simp] theorem writeWords_cons (code : ByteCharCode) (w : Word n) (ws : List (Word n)) :
    writeWords code (w :: ws) = writeWord code w ++ writeWords code ws := List.flatMap_cons

/-- Settles O53: the text of one word by position, then that of a sequence. -/
theorem aWordIsWrittenAsSignAndBytes : Obligations.AWordIsWrittenAsSignAndBytes := by
  intro code n w ws
  have hhead : (writeWord code w).head? = some (if w.sign = .minus then '-' else '+') := by
    rw [writeWord_head?, signChar_eq]
  exact ⟨writeWord_length code w, hhead, fun _ => writeWord_getElem? code w, writeWords_cons code w ws,
    writeWords_nil code⟩

end Sys2Proof.Machine
end

section
/-! Settles O17. Each part of an instruction comes back from the byte that encodes it: the address from sign and two
bytes, the index specification and the field from one byte each, and the operation code from dispatch (R80 to R91). -/

namespace Sys2Proof

open Machine

section

variable (s : Sign) (b1 b2 b3 b4 b5 : Byte)

@[simp] theorem word5_sign : (word5 s b1 b2 b3 b4 b5).sign = s := rfl
@[simp] theorem word5_byteAt_one : (word5 s b1 b2 b3 b4 b5).byteAt 1 = b1 := rfl
@[simp] theorem word5_byteAt_two : (word5 s b1 b2 b3 b4 b5).byteAt 2 = b2 := rfl
@[simp] theorem word5_byteAt_three : (word5 s b1 b2 b3 b4 b5).byteAt 3 = b3 := rfl
@[simp] theorem word5_byteAt_four : (word5 s b1 b2 b3 b4 b5).byteAt 4 = b4 := rfl
@[simp] theorem word5_byteAt_five : (word5 s b1 b2 b3 b4 b5).byteAt 5 = b5 := rfl

end

/-- The sign and the magnitude an address is encoded by give it back (R81, R96). -/
theorem addressSign_mul_natAbs (a : Int) : (if addressSign a = .minus then -1 else 1) * (a.natAbs : Int) = a := by
  unfold addressSign
  by_cases h : a < 0
  · simp only [if_pos h, if_true]; omega
  · simp only [if_neg h, reduceCtorEq, if_false]; omega

/-- The two bytes of an address hold its magnitude (R81). -/
theorem addressBytes_eq {m : Nat} (h : m ≤ 4095) :
    ((Fin.ofNat 64 (m / 64) : Byte).val * 64 + (Fin.ofNat 64 m : Byte).val : Int) = m := by
  simp only [Fin.val_ofNat]
  omega

theorem encode_address {i : Instr} (h : i.WellFormed) : spanValue (encode i) 0 2 = i.operands.address := by
  obtain ⟨hlow, hhigh, -⟩ := h
  have hsign : (encode i).sign = addressSign i.operands.address := word5_sign ..
  rw [spanValue_zero_two, hsign, encode, word5_byteAt_one, word5_byteAt_two, addressBytes_eq (by omega),
    addressSign_mul_natAbs]

theorem decodeIndex_encodeIndex : ∀ x : Option IndexReg, decodeIndex (encodeIndex x).val = .ok x
  | none | some .i1 | some .i2 | some .i3 | some .i4 | some .i5 | some .i6 => rfl

/-- The code of a field valid for five bytes fits a byte (R87). -/
theorem encodeField_lt {f : FieldSpec} (h : f.ValidFor 5) : encodeField f < 64 := by
  obtain ⟨hle, h5⟩ := h
  unfold encodeField
  omega

theorem decodeFieldSpec_encodeField {f : FieldSpec} (h : f.ValidFor 5) :
    decodeFieldSpec (Fin.ofNat 64 (encodeField f) : Byte).val = .ok f := by
  have hback : decodeField (encodeField f) = f := decodeField_encodeField (Nat.lt_of_le_of_lt h.2 (by decide))
  rw [Fin.val_ofNat, Nat.mod_eq_of_lt (encodeField_lt h), decodeFieldSpec, hback, if_pos h]

/-- Decode reads the operands and the operation code an instruction was encoded with (R90). -/
theorem decodeFields_encode {i : Instr} (h : i.WellFormed) :
    decodeFields (encode i) = .ok ⟨i.operands, i.opCode⟩ := by
  have haddress := encode_address h
  have hindex : decodeIndex ((encode i).byteAt 3).val = .ok i.operands.index := decodeIndex_encodeIndex _
  obtain ⟨-, -, hvalid⟩ := h
  have hfield : decodeFieldSpec ((encode i).byteAt 4).val = .ok i.operands.field := decodeFieldSpec_encodeField hvalid
  simp only [decodeFields, haddress, hindex, hfield, bind_ok]
  rfl

/-- The operation code of an instruction selects it (R91). -/
theorem dispatch_opCode (i : Instr) : Laws.OpCodeSelects.Statement i := by cases i <;> rfl

/-- Settles O17: the fields are read back, then dispatch selects the instruction. -/
theorem decodeOfEncodeIsTheInstruction : Obligations.DecodeOfEncodeIsTheInstruction := by
  intro i h
  rw [decode, decodeFields_encode h, bind_ok]
  exact dispatch_opCode i

end Sys2Proof
end

section
/-! Settles O18, O19 and O20. What decode answers for a word, by its three checked bytes in the order of decision D6,
and that an instruction names the bytes it was decoded from (R82, R83, R91 to R93). -/

namespace Sys2Proof

open Machine

/-! The opcode map. -/

/-- The operation codes of the map: 1, 2 and 8..33 (R91, R92). -/
def LegalOpCode (c : Nat) : Prop := c = 1 ∨ c = 2 ∨ (8 ≤ c ∧ c ≤ 33)

theorem opcodeTable_lookup_isSome (c : Byte) : (opcodeTable.lookup c.val).isSome ↔ LegalOpCode c.val := by
  unfold LegalOpCode
  revert c
  decide

theorem opcodeTable_lookup_eq_none {c : Byte} : opcodeTable.lookup c.val = none ↔ ¬ LegalOpCode c.val := by
  rw [← opcodeTable_lookup_isSome, Option.not_isSome_iff_eq_none]

/-- Every entry of the opcode map stands at the operation code of its instruction. -/
theorem opcodeTable_opCode (o : Operands) : ∀ r ∈ opcodeTable, (r.2 o).opCode.val = r.1 := by
  simp [opcodeTable, arithmeticCodes, loadCodes, loadNegativeCodes, storeCodes, Instr.opCode]

theorem dispatch_ok {d : Decoded} (h : LegalOpCode d.opCode.val) : ∃ i, dispatch d = .ok i := by
  rcases dispatch_cases d with ⟨i, hi, -⟩ | ⟨hnone, -⟩
  · exact ⟨i, hi⟩
  · exact absurd h (opcodeTable_lookup_eq_none.1 hnone)

theorem dispatch_error {d : Decoded} (h : ¬ LegalOpCode d.opCode.val) :
    dispatch d = .error (.unknownOpCode d.opCode.val) := by
  unfold dispatch
  rw [opcodeTable_lookup_eq_none.2 h]

/-- An instruction that dispatch answers has the operands and the operation code it was given. -/
theorem dispatch_eq_ok {d : Decoded} {i : Instr} (h : dispatch d = .ok i) :
    i.operands = d.operands ∧ i.opCode = d.opCode := by
  unfold dispatch at h
  split at h
  · next mk hmk =>
    cases h
    have hmem := mem_of_lookup hmk
    exact ⟨opcodeTable_operands _ _ hmem, Fin.ext (opcodeTable_opCode _ _ hmem)⟩
  · cases h

/-! The first illegal part (D6). -/

/-- The fields of a word whose index and field bytes are legal (R90). -/
theorem decodeFields_ok {w : Word 5} (hi : (w.byteAt 3).val ≤ 6) (hf : (decodeField (w.byteAt 4).val).ValidFor 5) :
    ∃ x, decodeFields w = .ok ⟨⟨spanValue w 0 2, x, decodeField (w.byteAt 4).val⟩, w.byteAt 5⟩ := by
  rcases decodeFields_cases w with ⟨x, -, -, hd⟩ | ⟨h7, -⟩ | ⟨-, hn, -⟩
  · exact ⟨x, hd⟩
  · omega
  · exact absurd hf hn

theorem decodeFields_badField {w : Word 5} (hi : (w.byteAt 3).val ≤ 6)
    (hf : ¬ (decodeField (w.byteAt 4).val).ValidFor 5) :
    decodeFields w = .error (.invalidArgument (.field (w.byteAt 4).val)) := by
  rcases decodeFields_cases w with ⟨-, -, hv, -⟩ | ⟨h7, -⟩ | ⟨-, -, hd⟩
  · exact absurd hv hf
  · omega
  · exact hd

theorem decode_of_decodeFields_error {w : Word 5} {k : FaultKind} (h : decodeFields w = .error k) :
    decode w = .error k := by
  rw [decode, h, bind_error]

theorem decode_of_decodeFields_ok {w : Word 5} {d : Decoded} (h : decodeFields w = .ok d) :
    decode w = dispatch d := by
  rw [decode, h, bind_ok]

/-- Settles O20: down the chain of checks; the last is dispatch's. -/
theorem theFirstIllegalPartIsReported : Obligations.TheFirstIllegalPartIsReported := by
  intro w
  have hvalid : (decodeField (w.byteAt 4).val).ValidFor 5 ↔
      ¬ ((w.byteAt 4).val % 8 < (w.byteAt 4).val / 8 ∨ 5 < (w.byteAt 4).val % 8) := by
    rw [not_or, Nat.not_lt, Nat.not_lt]
    rfl
  split
  case isTrue h7 => exact decode_of_decodeFields_error (decodeFields_badIndex h7)
  case isFalse h7 =>
    have hi : (w.byteAt 3).val ≤ 6 := by omega
    split
    case isTrue hbad => exact decode_of_decodeFields_error (decodeFields_badField hi (mt hvalid.1 (not_not.2 hbad)))
    case isFalse hgood =>
      obtain ⟨x, hd⟩ := decodeFields_ok hi (hvalid.2 hgood)
      rw [decode_of_decodeFields_ok hd]
      split
      case isTrue hc => exact dispatch_ok hc
      case isFalse hc => exact dispatch_error hc

/-! The legal words (R93). -/

/-- R87: of the 64 values of a byte, the codes of the valid fields. -/
theorem decodeField_validFor_iff (e : Byte) : (decodeField e.val).ValidFor 5 ↔
    e.val ∈ [0, 1, 2, 3, 4, 5, 9, 10, 11, 12, 13, 18, 19, 20, 21, 27, 28, 29, 36, 37, 45] := by
  revert e
  decide

theorem decode_ok {w : Word 5} (hi : (w.byteAt 3).val ≤ 6) (hf : (decodeField (w.byteAt 4).val).ValidFor 5)
    (hc : LegalOpCode (w.byteAt 5).val) : ∃ i, decode w = .ok i := by
  obtain ⟨x, hd⟩ := decodeFields_ok hi hf
  rw [decode_of_decodeFields_ok hd]
  exact dispatch_ok hc

/-- The inversion of `decode`: both phases answered. -/
theorem decode_eq_ok {w : Word 5} {i : Instr} (h : decode w = .ok i) :
    ∃ d, decodeFields w = .ok d ∧ i.operands = d.operands ∧ i.opCode = d.opCode := by
  obtain ⟨d, hd, hi⟩ := bind_eq_ok h
  exact ⟨d, hd, dispatch_eq_ok hi⟩

/-- An instruction's own operation code is legal. -/
theorem legalOpCode_opCode (i : Instr) : LegalOpCode i.opCode.val := by
  refine not_not.1 fun h => ?_
  have hok : dispatch ⟨i.operands, i.opCode⟩ = .ok i := dispatch_opCode i
  rw [dispatch_error (d := ⟨i.operands, i.opCode⟩) h] at hok
  cases hok

/-- Settles O19: a word that decodes passed each check, and one that passes each decodes. -/
theorem exactlyTheLegalWordsDecode : Obligations.ExactlyTheLegalWordsDecode := by
  intro w
  rw [← decodeField_validFor_iff]
  refine ⟨fun ⟨i, h⟩ => ?_, fun ⟨hi, hf, hc⟩ => decode_ok hi hf hc⟩
  obtain ⟨d, hd, -, hop⟩ := decode_eq_ok h
  obtain ⟨-, hindex, hfield, hcode⟩ := decodeFields_eq_ok hd
  refine ⟨?index, ?field, ?opCode⟩
  case index =>
    rcases decodeIndex_cases (w.byteAt 3).val with ⟨hle, -⟩ | ⟨-, he⟩
    · exact hle
    · rw [he] at hindex; cases hindex
  case field =>
    rcases decodeFieldSpec_cases (w.byteAt 4).val with ⟨hv, -⟩ | ⟨-, he⟩
    · exact hv
    · rw [he] at hfield; cases hfield
  case opCode =>
    rw [← hcode, ← hop]
    exact legalOpCode_opCode i

/-! Encoding what was decoded. -/

theorem encodeIndex_of_decodeIndex {b : Byte} {x : Option IndexReg} (h : decodeIndex b.val = .ok x) :
    encodeIndex x = b := by
  apply Fin.ext
  have hrow := decodeIndex_eq_ok h
  simp only [List.mem_cons, Prod.mk.injEq, List.not_mem_nil, or_false] at hrow
  obtain ⟨hb, rfl⟩ | ⟨hb, rfl⟩ | ⟨hb, rfl⟩ | ⟨hb, rfl⟩ | ⟨hb, rfl⟩ | ⟨hb, rfl⟩ | ⟨hb, rfl⟩ := hrow <;>
    exact hb.symm

theorem encodeField_of_decodeFieldSpec {b : Byte} {f : FieldSpec} (h : decodeFieldSpec b.val = .ok f) :
    (Fin.ofNat 64 (encodeField f) : Byte) = b := by
  rcases decodeFieldSpec_cases b.val with ⟨-, he⟩ | ⟨-, he⟩
  · rw [he] at h
    cases h
    rw [encodeField_decodeField]
    exact Fin.ext (Nat.mod_eq_of_lt b.isLt)
  · rw [he] at h; cases h

/-- The magnitude of an address is the number of the two bytes it was decoded from. -/
theorem spanValue_zero_two_natAbs {n : Nat} (w : Word n) :
    (spanValue w 0 2).natAbs = (w.byteAt 1).val * 64 + (w.byteAt 2).val :=
  (spanValue_natAbs w 0 2).trans (spanMag_two w 1)

/-- The sign of an address that is not 0 is that of the word it was decoded from. -/
theorem addressSign_spanValue {n : Nat} {w : Word n} (h : spanValue w 0 2 ≠ 0) :
    addressSign (spanValue w 0 2) = w.sign := by
  have hv := spanValue_zero_two w
  unfold addressSign
  cases hs : w.sign with
  | plus =>
    simp only [hs, reduceCtorEq, if_false] at hv
    exact if_neg (by omega)
  | minus =>
    simp only [hs, if_true] at hv
    exact if_pos (by omega)

/-- The encoding of what a word decodes to has the word's bytes, and the sign R96 spells for its address. -/
theorem encode_of_decode {w : Word 5} {i : Instr} (h : decode w = .ok i) :
    encode i = { w with sign := addressSign i.operands.address } := by
  obtain ⟨d, hd, ho, hc⟩ := decode_eq_ok h
  obtain ⟨haddress, hindex, hfield, hcode⟩ := decodeFields_eq_ok hd
  refine Word.ext_byteAt rfl fun j h1 h5 => ?_
  have hb1 := (w.byteAt 1).isLt
  have hb2 := (w.byteAt 2).isLt
  have habs : i.operands.address.natAbs = (w.byteAt 1).val * 64 + (w.byteAt 2).val := by
    rw [ho, haddress, spanValue_zero_two_natAbs]
  show (encode i).byteAt j = w.byteAt j
  obtain rfl | rfl | rfl | rfl | rfl : j = 1 ∨ j = 2 ∨ j = 3 ∨ j = 4 ∨ j = 5 := by omega
  · refine Fin.ext ?_
    simp only [encode, word5_byteAt_one, Fin.val_ofNat, habs]
    omega
  · refine Fin.ext ?_
    simp only [encode, word5_byteAt_two, Fin.val_ofNat, habs]
    omega
  · rw [encode, word5_byteAt_three, ho, encodeIndex_of_decodeIndex hindex]
  · rw [encode, word5_byteAt_four, ho, encodeField_of_decodeFieldSpec hfield]
  · rw [encode, word5_byteAt_five, hc, hcode]

/-- Settles O18: the bytes agree for every address, the sign by whether the address is 0. -/
theorem encodeOfDecodeIsTheWord : Obligations.EncodeOfDecodeIsTheWord := by
  intro w i h
  obtain ⟨d, hd, ho, -⟩ := decode_eq_ok h
  obtain ⟨haddress, -, -, -⟩ := decodeFields_eq_ok hd
  have hencode := encode_of_decode h
  refine ⟨?wf, fun j _ _ => ?bytes, fun h0 => ?nonzero, fun h0 => ?zero⟩
  case wf =>
    rw [Instr.WellFormed, ho]
    exact decodeFields_wellFormed hd
  case bytes => rw [hencode]; rfl
  case nonzero =>
    rw [ho, haddress] at h0 hencode
    rw [hencode, addressSign_spanValue h0]
  case zero => rw [hencode, h0]; rfl

end Sys2Proof
end

section
/-! Settles O2 and O21. -/

namespace Sys2Proof

open Machine

/-- Settles O2: the check of decode passes exactly the valid fields. -/
theorem twentyOneFieldBytesAreValid : Obligations.TwentyOneFieldBytesAreValid := by
  intro e he
  have hvalid := decodeField_validFor_iff ⟨e, he⟩
  split
  case isTrue h => exact if_pos (hvalid.2 h)
  case isFalse h => exact if_neg (mt hvalid.1 h)

theorem decode_eq_ok_of_encode_eq {i : Instr} {w : Word 5} (hi : i.WellFormed) (hw : encode i = w) :
    decode w = .ok i := by
  rw [← hw, decodeOfEncodeIsTheInstruction i hi]

/-- Settles O21: each word is the encoding of the instruction it stands for. -/
theorem sampleWordsDecode : Obligations.SampleWordsDecode := by
  refine ⟨?_, ?_, ?_, ?_⟩ <;> exact decode_eq_ok_of_encode_eq (by decide) (by decide)

end Sys2Proof
end

section
/-! Settles O28. Each effect of an instruction keeps memory canonical, rJ, the comparison indicator and the pc, and a
fault it records is one the fault table allows; so does each effect of a step (R27, R31, R161, R283). -/

namespace Sys2Proof.Machine

/-- What no instruction touches, whatever it does else. -/
structure Untouched (s t : State) : Prop where
  rJ : t.rJ = s.rJ
  ci : t.ci = s.ci
  pc : t.pc = s.pc

/-- rJ, the comparison indicator and the pc are outside every change an instruction makes. -/
theorem Change.untouched {o : Operands} {s t : State} (h : Change o s t) : Untouched s t := by
  cases h with
  | loaded r c => exact ⟨State.setLoaded_rJ s r c, State.setLoaded_ci s r c, State.setLoaded_pc s r c⟩
  | stored w ha => exact ⟨rfl, rfl, rfl⟩
  | calculated x => exact ⟨rfl, rfl, rfl⟩
  | faulted k => exact ⟨rfl, rfl, rfl⟩

/-- A memory word is written at an existing address only, so memory stays canonical. -/
theorem Change.mem_wf {o : Operands} {s t : State} (h : Change o s t) (hm : s.mem.wf) : t.mem.wf := by
  cases h with
  | loaded r c => rw [State.setLoaded_mem]; exact hm
  | stored w ha => exact Memory.set_wf w ha.2 hm
  | calculated x => exact hm
  | faulted k => exact hm

/-- The effective address is an address of at most 12 bits plus a half-word (R156). -/
theorem effectiveAddress_bounds {o : Operands} (h : o.WellFormed) (s : State) :
    -8190 ≤ effectiveAddress o s ∧ effectiveAddress o s ≤ 8190 := by
  obtain ⟨hlow, hhigh, -⟩ := h
  have hindex : -4095 ≤ indexOffset s o.index ∧ indexOffset s o.index ≤ 4095 := by
    cases o.index with
    | none => exact ⟨by simp [indexOffset], by simp [indexOffset]⟩
    | some i => exact spanValue_two_bounds (s.index i)
  unfold effectiveAddress
  omega

/-- A fault that an instruction of a step records is one of Execute: orders 5 and 6 of R283. -/
theorem Effect.statusWf {o : Operands} {s t : State} (h : Effect o s t) (ho : o.WellFormed) (hr : s.status = .running)
    (hpc : 1 ≤ s.pc) : StatusWf t := by
  have hnext : s.pc = s.pc - 1 + 1 := by omega
  have hrunning {u : State} (hu : u.status = s.status) : StatusWf u := by
    unfold StatusWf
    rw [hu, hr]
    trivial
  cases h with
  | loaded r c ha => exact hrunning (State.setLoaded_status s r c)
  | stored w ha => exact hrunning rfl
  | calculated x ha => exact hrunning rfl
  | badAddress ha => exact .inr ⟨hnext, ha, effectiveAddress_bounds ho s⟩
  | badCount hk =>
    have hle := FieldSpec.byteCount_le ho.2.2
    exact ⟨hnext, by omega, by omega⟩

/-- A fault of Fetch, Decode or dispatch changes no more than the pc and the run status, so only these are to check. -/
theorem stateWf_of_frame {s t : State} (hs : StateWf s) (hm : t.mem = s.mem) (hJ : t.rJ = s.rJ) (hci : t.ci = s.ci)
    (hpc : t.pc ≤ Config.memSize) (hst : StatusWf t) : StateWf t := by
  obtain ⟨hmem, hrJ, hc, -, -⟩ := hs
  exact ⟨hm ▸ hmem, hJ.trans hrJ, hci.trans hc, hpc, hst⟩

/-- Settles O28: by the effect of the step. -/
theorem everyStepKeepsTheStateWellFormed : Obligations.EveryStepKeepsTheStateWellFormed := by
  intro s t hs h
  obtain ⟨hr, he⟩ := step_eq_next h
  have ⟨hmem, hrJ, hc, hpc, _⟩ := hs
  cases he with
  | fetchFault hend => exact stateWf_of_frame hs rfl rfl rfl hpc (.inl ⟨rfl, rfl, hend⟩)
  | indexFault w hw h7 =>
    exact stateWf_of_frame hs rfl rfl rfl hpc ⟨rfl, h7, Nat.le_of_lt_succ (w.byteAt 3).isLt⟩
  | fieldFault w hw hf =>
    exact stateWf_of_frame hs rfl rfl rfl hpc ⟨rfl, Nat.le_of_lt_succ (w.byteAt 4).isLt, hf⟩
  | opCodeFault w hlt hnone =>
    exact stateWf_of_frame hs rfl rfl rfl hlt ⟨rfl, Nat.le_of_lt_succ (w.byteAt 5).isLt, hnone⟩
  | ran i t hlt hi hx heffect =>
    have hchange := exec_change hx
    obtain ⟨hJ, hci, hpc'⟩ := hchange.untouched
    exact ⟨hchange.mem_wf hmem, hJ.trans hrJ, hci.trans hc, hpc' ▸ hlt,
      heffect.statusWf hi hr (Nat.succ_le_succ (Nat.zero_le s.pc))⟩

end Sys2Proof.Machine
end

section
/-! Settles O26 and O27. What a step that faults leaves, and what a step does to the pc, read off from its effect (R153,
R158). -/

namespace Sys2Proof.Machine

/-- An instruction that ends in a recorded fault has changed the run status alone, and records `pc - 1` (R158). -/
theorem Change.of_status_ne {o : Operands} {s t : State} (h : Change o s t) (hr : s.status = .running)
    (ht : t.status ≠ .running) : ∃ k, t = raiseFault k (s.pc - 1) s := by
  cases h with
  | loaded r c => exact absurd ((State.setLoaded_status s r c).trans hr) ht
  | stored w ha => exact absurd hr ht
  | calculated x => exact absurd hr ht
  | faulted k => exact ⟨k, rfl⟩

/-- A step that faults: before the pc advance or after it, with the run status changed besides and nothing else. -/
theorem step_faults {s t : State} (h : step s = .next t) (ht : t.status ≠ .running) :
    ∃ k, t = raiseFault k s.pc s ∨ t = raiseFault k s.pc s.advance := by
  obtain ⟨hr, he⟩ := step_eq_next h
  cases he with
  | fetchFault => exact ⟨_, .inl rfl⟩
  | indexFault => exact ⟨_, .inl rfl⟩
  | fieldFault => exact ⟨_, .inl rfl⟩
  | opCodeFault => exact ⟨_, .inr rfl⟩
  | ran i t hpc hi hx he =>
    obtain ⟨k, hk⟩ := (exec_change hx).of_status_ne hr ht
    exact ⟨k, .inr hk⟩

/-- Settles O26. -/
theorem aFaultingStepWritesNothing : Obligations.AFaultingStepWritesNothing := by
  intro s t h ht
  obtain ⟨k, rfl | rfl⟩ := step_faults h ht
  · exact ⟨rfl, .inl rfl, k, rfl⟩
  · exact ⟨rfl, .inr rfl, k, rfl⟩

/-! The pc (R153). -/

theorem exec_pc {i : Instr} {s t : State} (h : exec i s = .next t) : t.pc = s.pc := (exec_change h).untouched.pc

/-- Execute leaves the pc advanced, also where dispatch faults (D7). -/
theorem executeDecoded_pc {d : Decoded} {s t : State} (h : executeDecoded d s = .next t) : t.pc = s.pc := by
  cases hd : dispatch d with
  | error k =>
    rw [executeDecoded_error s hd] at h
    cases h
    rfl
  | ok i =>
    rw [executeDecoded_ok s hd] at h
    exact exec_pc h

/-- A step that does not fault ran an instruction. -/
theorem step_completes {s t : State} (h : step s = .next t) (ht : t.status = .running) :
    s.pc < Config.memSize ∧ ∃ i, exec i s.advance = .next t := by
  obtain ⟨-, he⟩ := step_eq_next h
  cases he with
  | fetchFault => cases ht
  | indexFault => cases ht
  | fieldFault => cases ht
  | opCodeFault => cases ht
  | ran i t hpc hi hx he => exact ⟨hpc, i, hx⟩

theorem step_completes_pc {s t : State} (h : step s = .next t) (ht : t.status = .running) : t.pc = s.pc + 1 := by
  obtain ⟨-, i, hx⟩ := step_completes h ht
  exact exec_pc hx

/-- Settles O27: the cycle after decode, the instruction alone, and the step that completes. -/
theorem aCompletedStepAdvancesThePcByOne : Obligations.ACompletedStepAdvancesThePcByOne := by
  refine ⟨fun s t w d hw hd h => ?_, fun i s t h => exec_pc h, fun s t h ht => step_completes_pc h ht⟩
  obtain ⟨hr, -⟩ := step_eq_next h
  rw [step_running hr, cycle_decoded hw hd] at h
  exact executeDecoded_pc h

end Sys2Proof.Machine
end

section
/-! What an instruction means, said once: each of the 28 is a shared operation under `complete`, with the register it
reads or writes (R180, R200, R220, R231, R250). -/

namespace Sys2Proof.Machine

/-- The shared operation an instruction runs, and the family it belongs to. The register a Store reads is no part of
memory, and a Store from a register of less than five bytes is one of the seven half-word Stores. -/
inductive Meaning (i : Instr) : Prop where
  | load (r : LoadTarget) (hs : Claims.isStore i = false) (ha : Claims.isArithmetic i = false)
      (hx : ∀ s, exec i s = complete s (load i.operands r s))
  | loadNeg (r : LoadTarget) (hs : Claims.isStore i = false) (ha : Claims.isArithmetic i = false)
      (hx : ∀ s, exec i s = complete s (loadNeg i.operands r s))
  | store {n : Nat} (v : State → Word n) (hv : ∀ s m, v (s.setMem m) = v s) (hn : n ≤ 5)
      (hhalf : n = 5 ∨ n = 2 ∧ i ∈ Claims.halfStores i.operands) (hs : Claims.isStore i = true)
      (ha : Claims.isArithmetic i = false) (hx : ∀ s, exec i s = complete s (store Config.hardware i.operands (v s) s))
  | storeZero (hs : Claims.isStore i = true) (ha : Claims.isArithmetic i = false)
      (hx : ∀ s, exec i s = complete s (storeField i.operands (Word.zero 5) s))
  | arith (op : ArithOp) (hs : Claims.isStore i = false) (ha : Claims.isArithmetic i = true)
      (hx : ∀ s, exec i s = complete s (arith Config.hardware op i.operands s))

theorem Meaning.halfStore {i : Instr} (v : State → Word 2) (hv : ∀ s m, v (s.setMem m) = v s)
    (hi : i ∈ Claims.halfStores i.operands) (hs : Claims.isStore i = true) (ha : Claims.isArithmetic i = false)
    (hx : ∀ s, exec i s = complete s (Machine.store Config.hardware i.operands (v s) s)) : Meaning i :=
  .store v hv (by decide) (.inr ⟨rfl, hi⟩) hs ha hx

/-- The seven half-word Stores by name. -/
theorem mem_halfStores {i : Instr} {o : Operands} : i ∈ Claims.halfStores o ↔ i = .stj o ∨ i = .st1 o ∨ i = .st2 o ∨
    i = .st3 o ∨ i = .st4 o ∨ i = .st5 o ∨ i = .st6 o := by
  simp only [Claims.halfStores, List.mem_cons, List.not_mem_nil, or_false]

theorem exec_meaning (i : Instr) : Meaning i := by
  cases i with
  | add o => exact .arith .add rfl rfl fun _ => rfl
  | sub o => exact .arith .sub rfl rfl fun _ => rfl
  | lda o => exact .load .a rfl rfl fun _ => rfl
  | ldx o => exact .load .x rfl rfl fun _ => rfl
  | ld1 o => exact .load (.index .i1) rfl rfl fun _ => rfl
  | ld2 o => exact .load (.index .i2) rfl rfl fun _ => rfl
  | ld3 o => exact .load (.index .i3) rfl rfl fun _ => rfl
  | ld4 o => exact .load (.index .i4) rfl rfl fun _ => rfl
  | ld5 o => exact .load (.index .i5) rfl rfl fun _ => rfl
  | ld6 o => exact .load (.index .i6) rfl rfl fun _ => rfl
  | ldan o => exact .loadNeg .a rfl rfl fun _ => rfl
  | ldxn o => exact .loadNeg .x rfl rfl fun _ => rfl
  | ld1n o => exact .loadNeg (.index .i1) rfl rfl fun _ => rfl
  | ld2n o => exact .loadNeg (.index .i2) rfl rfl fun _ => rfl
  | ld3n o => exact .loadNeg (.index .i3) rfl rfl fun _ => rfl
  | ld4n o => exact .loadNeg (.index .i4) rfl rfl fun _ => rfl
  | ld5n o => exact .loadNeg (.index .i5) rfl rfl fun _ => rfl
  | ld6n o => exact .loadNeg (.index .i6) rfl rfl fun _ => rfl
  | sta o => exact .store State.rA (fun _ _ => rfl) le_rfl (.inl rfl) rfl rfl fun _ => rfl
  | stx o => exact .store State.rX (fun _ _ => rfl) le_rfl (.inl rfl) rfl rfl fun _ => rfl
  | stj o => exact .halfStore State.rJ (fun _ _ => rfl) (by simp [mem_halfStores, Instr.operands]) rfl rfl fun _ => rfl
  | st1 o => exact .halfStore State.rI1 (fun _ _ => rfl) (by simp [mem_halfStores, Instr.operands]) rfl rfl fun _ => rfl
  | st2 o => exact .halfStore State.rI2 (fun _ _ => rfl) (by simp [mem_halfStores, Instr.operands]) rfl rfl fun _ => rfl
  | st3 o => exact .halfStore State.rI3 (fun _ _ => rfl) (by simp [mem_halfStores, Instr.operands]) rfl rfl fun _ => rfl
  | st4 o => exact .halfStore State.rI4 (fun _ _ => rfl) (by simp [mem_halfStores, Instr.operands]) rfl rfl fun _ => rfl
  | st5 o => exact .halfStore State.rI5 (fun _ _ => rfl) (by simp [mem_halfStores, Instr.operands]) rfl rfl fun _ => rfl
  | st6 o => exact .halfStore State.rI6 (fun _ _ => rfl) (by simp [mem_halfStores, Instr.operands]) rfl rfl fun _ => rfl
  | stz o => exact .storeZero rfl rfl fun _ => rfl

end Sys2Proof.Machine
end

section
/-! Settles O32, O33 and O34. What an instruction of each family leaves unchanged (R27, R30, R31, R65). -/

namespace Sys2Proof.Machine

/-- The two ends of Execute (R155), without what the handler answered in the second. -/
theorem complete_ok_or_fault {s t : State} {x : Except FaultKind State} (h : complete s x = .next t) :
    x = .ok t ∨ ∃ k, t = raiseFault k (s.pc - 1) s :=
  (complete_eq_next h).imp_right fun ⟨k, _, ht⟩ => ⟨k, ht⟩

/-- What the handler of a Store can answer: one word written at the effective address, or a fault. -/
theorem exec_of_isStore {i : Instr} {s t : State} (hi : Claims.isStore i = true) (h : exec i s = .next t) :
    (addressExists (effectiveAddress i.operands s) ∧
        ∃ w, t = s.setMem (s.mem.set (effectiveAddress i.operands s).toNat w)) ∨
      ∃ k, t = raiseFault k (s.pc - 1) s := by
  cases exec_meaning i with
  | load _ hs | loadNeg _ hs | arith _ hs => rw [hi] at hs; cases hs
  | store v _ _ _ _ _ hx =>
    rw [hx] at h
    exact (complete_ok_or_fault h).imp_left store_eq_ok
  | storeZero _ _ hx =>
    rw [hx] at h
    exact (complete_ok_or_fault h).imp_left storeField_eq_ok

/-- What the handler of an instruction that is no Store can answer: a register loaded, a result, or a fault. -/
theorem exec_of_not_isStore {i : Instr} {s t : State} (hi : Claims.isStore i = false) (h : exec i s = .next t) :
    (Claims.isArithmetic i = false ∧ ∃ r c, t = s.setLoaded r c) ∨
      (Claims.isArithmetic i = true ∧ ∃ x, t = s.setResult Config.hardware x) ∨
      ∃ k, t = raiseFault k (s.pc - 1) s := by
  cases exec_meaning i with
  | store _ _ _ _ hs | storeZero hs => rw [hi] at hs; cases hs
  | load r _ ha hx =>
    rw [hx] at h
    refine (complete_ok_or_fault h).imp (fun ht => ⟨ha, r, ?_⟩) .inr
    obtain ⟨c, -, hc⟩ := load_eq_ok ht
    exact ⟨c, hc⟩
  | loadNeg r _ ha hx =>
    rw [hx] at h
    refine (complete_ok_or_fault h).imp (fun ht => ⟨ha, r, ?_⟩) .inr
    obtain ⟨c, -, hc⟩ := loadNeg_eq_ok ht
    exact ⟨_, hc⟩
  | arith op _ ha hx =>
    rw [hx] at h
    refine .inr ((complete_ok_or_fault h).imp_left fun ht => ⟨ha, ?_⟩)
    obtain ⟨-, hc⟩ := arith_eq_ok ht
    exact hc

/-- Settles O34: the frame of a Store is that of one memory write. -/
theorem onlyStoresWriteMemory : Obligations.OnlyStoresWriteMemory := by
  intro i s t h
  split
  case isTrue hi =>
    rcases exec_of_isStore hi h with ⟨ha, w, rfl⟩ | ⟨k, rfl⟩
    · exact ⟨rfl, fun a hne => memRead_set_of_ne ha hne s.mem w⟩
    · exact ⟨rfl, fun _ _ => rfl⟩
  case isFalse hi =>
    have hno := Bool.eq_false_of_not_eq_true hi
    rcases exec_of_not_isStore hno h with ⟨-, r, c, rfl⟩ | ⟨-, x, rfl⟩ | ⟨k, rfl⟩
    · exact State.setLoaded_mem s r c
    · rfl
    · rfl

/-- Settles O33. -/
theorem noInstructionWritesRJOrTheComparisonIndicator : Obligations.NoInstructionWritesRJOrTheComparisonIndicator := by
  intro i s t h
  obtain ⟨hJ, hci, -⟩ := (exec_change h).untouched
  exact ⟨hJ, hci⟩

/-! The overflow bit (R30). -/

theorem exec_ov_of_not_isArithmetic {i : Instr} {s t : State} (hi : Claims.isArithmetic i = false)
    (h : exec i s = .next t) : t.ov = s.ov := by
  cases hs : Claims.isStore i with
  | true =>
    rcases exec_of_isStore hs h with ⟨-, w, rfl⟩ | ⟨k, rfl⟩
    · rfl
    · rfl
  | false =>
    rcases exec_of_not_isStore hs h with ⟨-, r, c, rfl⟩ | ⟨ha, -⟩ | ⟨k, rfl⟩
    · exact State.setLoaded_ov s r c
    · rw [hi] at ha; cases ha
    · rfl

@[simp] theorem overflowAfter_on (x : Int) : overflowAfter x .on = .on := ite_self _

/-- No change an instruction makes sets the bit Off. -/
theorem Change.ov_on {o : Operands} {s t : State} (h : Change o s t) (hs : s.ov = .on) : t.ov = .on := by
  cases h with
  | loaded r c => exact (State.setLoaded_ov s r c).trans hs
  | stored w ha => exact hs
  | calculated x => rw [State.setResult_ov, hs, overflowAfter_on]
  | faulted k => exact hs

/-- Settles O32: an instruction by its family, a step by its end. -/
theorem theOverflowBitIsSticky : Obligations.TheOverflowBitIsSticky := by
  refine ⟨fun i s t h hi => exec_ov_of_not_isArithmetic hi h, fun s t h hs => ?_⟩
  obtain ⟨-, he⟩ := step_eq_next h
  cases he with
  | fetchFault | indexFault | fieldFault | opCodeFault => exact hs
  | ran i t _ _ hx => exact (exec_change hx).ov_on hs

end Sys2Proof.Machine
end

section
/-! Settles O35. Run on another memory that agrees at the effective address, each shared operation answers the same, with
one word written in the other memory where it writes one in the first (R65). -/

namespace Sys2Proof.Machine

/-- `y` is the answer `x` on the other memory `m`: the same fault, or the same state but for its memory, which is `x`'s
at `a` and `m` elsewhere. -/
def Follows (a : Nat) (m : Memory) : Except FaultKind State → Except FaultKind State → Prop
  | .error k, y => y = .error k
  | .ok t, y => ∃ m', y = .ok (t.setMem m') ∧ m'.get a = t.mem.get a ∧ ∀ b, b ≠ a → m'.get b = m.get b

variable {o : Operands} {s : State} {m : Memory}

/-- The other memory agrees with that of the state at the effective address. -/
abbrev SameOperand (o : Operands) (s : State) (m : Memory) : Prop :=
  m.get (effectiveAddress o s).toNat = s.mem.get (effectiveAddress o s).toNat

/-- The effective address depends on the index registers alone (R156). -/
theorem effectiveAddress_congr {t : State} (o : Operands) (h : ∀ i, t.index i = s.index i) :
    effectiveAddress o t = effectiveAddress o s := by
  rw [effectiveAddress, effectiveAddress]
  cases o.index with
  | none => rfl
  | some i => rw [indexOffset, indexOffset, h]

theorem effectiveAddress_setMem (o : Operands) (s : State) (m : Memory) :
    effectiveAddress o (s.setMem m) = effectiveAddress o s := effectiveAddress_congr o (State.setMem_index s m)

theorem memRead_congr {m' : Memory} {a : Int} (h : m.get a.toNat = m'.get a.toNat) : memRead m a = memRead m' a := by
  rw [memRead, memRead, h]

theorem memRead_setMem (hm : SameOperand o s m) :
    memRead (s.setMem m).mem (effectiveAddress o (s.setMem m)) = memRead s.mem (effectiveAddress o s) := by
  rw [effectiveAddress_setMem]
  exact memRead_congr hm

theorem loadContent_setMem (hm : SameOperand o s m) : loadContent o (s.setMem m) = loadContent o s := by
  rw [loadContent, memRead_setMem hm]
  rfl

theorem setLoaded_setMem (s : State) (m : Memory) (r : LoadTarget) (c : Word 5) :
    (s.setMem m).setLoaded r c = (s.setLoaded r c).setMem m := by
  cases r with
  | a | x => rfl
  | index i => cases i <;> rfl

/-- A register loaded with anything made of the content, as the Loads and the Load-Negatives do. -/
theorem setLoaded_follows (g : Word 5 → Word 5) (r : LoadTarget) (hm : SameOperand o s m) :
    Follows (effectiveAddress o s).toNat m (loadContent o s >>= fun c => .ok (s.setLoaded r (g c)))
      (loadContent o (s.setMem m) >>= fun c => .ok ((s.setMem m).setLoaded r (g c))) := by
  rw [loadContent_setMem hm]
  cases loadContent o s with
  | error k => rfl
  | ok c => exact ⟨m, congrArg _ (setLoaded_setMem s m r (g c)), by rw [hm, State.setLoaded_mem], fun _ _ => rfl⟩

theorem load_follows (r : LoadTarget) (hm : SameOperand o s m) :
    Follows (effectiveAddress o s).toNat m (load o r s) (load o r (s.setMem m)) := setLoaded_follows id r hm

theorem loadNeg_follows (r : LoadTarget) (hm : SameOperand o s m) :
    Follows (effectiveAddress o s).toNat m (loadNeg o r s) (loadNeg o r (s.setMem m)) :=
  setLoaded_follows (fun c => if o.field.containsSign then negateWord c else c) r hm

theorem arith_follows (p : Params) (op : ArithOp) (hm : SameOperand o s m) :
    Follows (effectiveAddress o s).toNat m (arith p op o s) (arith p op o (s.setMem m)) := by
  rw [arith, arith, memRead_setMem hm, State.setMem_rA]
  cases memRead s.mem (effectiveAddress o s) with
  | error k => rfl
  | ok w =>
    rw [bind_ok, bind_ok]
    cases toInt s.rA o.field.left o.field.right with
    | error k => rfl
    | ok a =>
      rw [bind_ok, bind_ok]
      cases toInt w o.field.left o.field.right with
      | error k => rfl
      | ok b => exact ⟨m, rfl, hm, fun _ _ => rfl⟩

/-- The read-modify-write puts the same word at the same address of either memory. -/
theorem storeField_follows (src : Word 5) (hm : SameOperand o s m) :
    Follows (effectiveAddress o s).toNat m (storeField o src s) (storeField o src (s.setMem m)) := by
  by_cases ha : addressExists (effectiveAddress o s)
  case neg =>
    rw [storeField_error ha, storeField_error (by rwa [effectiveAddress_setMem]), effectiveAddress_setMem]
    rfl
  case pos =>
    simp only [storeField, effectiveAddress_setMem, State.setMem_mem, memRead_congr hm, memRead_ok ha, bind_ok]
    cases copyRange (s.mem.get (effectiveAddress o s).toNat) src o.field.left o.field.right with
    | error k => rfl
    | ok new =>
      simp only [bind_ok, memWrite_ok ha]
      refine ⟨m.set (effectiveAddress o s).toNat new, rfl, ?_, fun b hb => ?_⟩
      · rw [State.setMem_mem, Memory.get_set, Memory.get_set, if_pos rfl, if_pos rfl]
      · rw [Memory.get_set, if_neg hb]

theorem store_follows {n : Nat} (p : Params) (v : Word n) (hm : SameOperand o s m) :
    Follows (effectiveAddress o s).toNat m (store p o v s) (store p o v (s.setMem m)) := by
  rw [store, store]
  cases storeContent p v o.field with
  | error k => rfl
  | ok src => exact storeField_follows src hm

/-- Completion keeps the correspondence: a recorded fault stands in the other memory as it was. -/
theorem complete_follows {x y : Except FaultKind State} {t : State} {a : Nat} (hm : m.get a = s.mem.get a)
    (hxy : Follows a m x y) (h : complete s x = .next t) :
    ∃ m', complete (s.setMem m) y = .next (t.setMem m') ∧ m'.get a = t.mem.get a ∧
      ∀ b, b ≠ a → m'.get b = m.get b := by
  rcases complete_eq_next h with rfl | ⟨k, rfl, rfl⟩
  · obtain ⟨m', rfl, hsame, hframe⟩ := hxy
    exact ⟨m', rfl, hsame, hframe⟩
  · obtain rfl : y = .error k := hxy
    exact ⟨m, rfl, hm, fun _ _ => rfl⟩

/-- Settles O35: by the operation the instruction runs. -/
theorem anInstructionReadsOneMemoryWord : Obligations.AnInstructionReadsOneMemoryWord := by
  intro i s t m hm h
  show ∃ m', exec i (s.setMem m) = .next (t.setMem m') ∧ _
  cases exec_meaning i with
  | load r _ _ hx => rw [hx] at h ⊢; exact complete_follows hm (load_follows r hm) h
  | loadNeg r _ _ hx => rw [hx] at h ⊢; exact complete_follows hm (loadNeg_follows r hm) h
  | store v hv _ _ _ _ hx => rw [hx] at h ⊢; rw [hv]; exact complete_follows hm (store_follows _ (v s) hm) h
  | storeZero _ _ hx => rw [hx] at h ⊢; exact complete_follows hm (storeField_follows _ hm) h
  | arith op _ _ hx => rw [hx] at h ⊢; exact complete_follows hm (arith_follows _ op hm) h

end Sys2Proof.Machine
end

section
/-! Settles O47 and O48. Where an operation faults, with its operand: the count of a wide half-word Store before the
address, the address for every operation (R190, R210, R232, R257; D5, D6). -/

namespace Sys2Proof.Machine

variable {o : Operands} {s : State}

theorem load_error (ha : ¬ addressExists (effectiveAddress o s)) (r : LoadTarget) :
    load o r s = .error (.indexError (effectiveAddress o s)) := by
  simp [load, loadContent, memRead_error ha]

theorem loadNeg_error (ha : ¬ addressExists (effectiveAddress o s)) (r : LoadTarget) :
    loadNeg o r s = .error (.indexError (effectiveAddress o s)) := by
  simp [loadNeg, loadContent, memRead_error ha]

theorem store_error {n : Nat} {p : Params} {v : Word n} (hf : o.field.ValidFor 5) (hk : o.field.byteCount ≤ n)
    (hn : n ≤ 5) (ha : ¬ addressExists (effectiveAddress o s)) :
    store p o v s = .error (.indexError (effectiveAddress o s)) := by
  obtain ⟨src, hsrc, -⟩ := storeAligned_spec (v := v) hf hk hn
  rw [store, storeContent_fits hk, hsrc, bind_ok, storeField_error ha]

/-- The count check comes before the address is used (R232). -/
theorem store_wide {n : Nat} {v : Word n} (hk : n < o.field.byteCount) :
    store Config.hardware o v s = .error (.invalidArgument (.count o.field.byteCount)) := by
  rw [store, storeContent_wide hk, bind_error]

theorem complete_fault (k : FaultKind) : complete s (.error k) = .next (Claims.faulted k s) := rfl

/-- A half-word Store is a Store of a Word<2>. -/
theorem exec_of_mem_halfStores {i : Instr} (h : i ∈ Claims.halfStores o) (s : State) :
    ∃ v : Word 2, exec i s = complete s (store Config.hardware o v s) := by
  obtain rfl | rfl | rfl | rfl | rfl | rfl | rfl := mem_halfStores.1 h <;> exact ⟨_, rfl⟩

/-- Settles O47. -/
theorem halfWordStoresOfWideFieldsFault : Obligations.HalfWordStoresOfWideFieldsFault := by
  intro o s i hf hcount hi
  obtain ⟨v, hx⟩ := exec_of_mem_halfStores hi s
  rw [claims_count_eq hf] at hcount ⊢
  rw [hx, store_wide hcount, complete_fault]

/-- Settles O48: by the operation the instruction runs; the field of a Store fits its register. -/
theorem anAddressOutsideMemoryFaults : Obligations.AnAddressOutsideMemoryFaults := by
  intro i s hf hout hcount
  have ha : ¬ addressExists (effectiveAddress i.operands s) := fun h => by
    have := addressExists_iff.1 h
    omega
  cases exec_meaning i with
  | load r _ _ hx => rw [hx, load_error ha, complete_fault]
  | loadNeg r _ _ hx => rw [hx, loadNeg_error ha, complete_fault]
  | arith op _ _ hx => rw [hx, arith_error ha, complete_fault]
  | storeZero _ _ hx => rw [hx, storeField_error ha, complete_fault]
  | store v _ hn hhalf _ _ hx =>
    rw [hx, store_error hf ?fits hn ha, complete_fault]
    case fits =>
      rcases hhalf with rfl | ⟨rfl, hi⟩
      · exact FieldSpec.byteCount_le hf
      · exact claims_count_eq hf ▸ hcount hi

end Sys2Proof.Machine
end

section
/-! Settles O23, O24 and O25. A step, by the first phase that faults, or by the instruction it decodes (R150 to R154,
R284). -/

namespace Sys2Proof.Machine

/-- Settles O25. -/
theorem aFaultedMachineHasNoStep : Obligations.AFaultedMachineHasNoStep := fun _ _ _ h => step_faulted h

/-- Settles O23: Fetch, Decode and dispatch answer, so the step is exec on the state Decode leaves. -/
theorem stepRunsTheDecodedInstruction : Obligations.StepRunsTheDecodedInstruction := by
  intro s i hr hpc h
  obtain ⟨d, hd, hi⟩ := bind_eq_ok h
  rw [step_running hr, cycle_decoded (fetch_ok hpc) hd, executeDecoded_ok _ hi]
  rfl

/-- Settles O24: each clause is the way of a cycle through the phase that faults. -/
theorem fetchDecodeAndDispatchFaults : Obligations.FetchDecodeAndDispatchFaults := by
  intro s hr
  rw [step_running hr]
  refine ⟨fun hend => cycle_fetch_error (fetch_error hend), fun hpc w hw => ?_⟩
  have hfetch : fetch s = .ok w := hw ▸ fetch_ok hpc
  refine ⟨fun h7 => cycle_decode_error hfetch (decodeFields_badIndex h7),
    fun hi hf => cycle_decode_error hfetch (decodeFields_badField hi hf), fun hi hf hc => ?_⟩
  obtain ⟨x, hd⟩ := decodeFields_ok hi hf
  have hillegal : ¬ LegalOpCode (w.byteAt 5).val := by unfold LegalOpCode; omega
  rw [cycle_decoded hfetch hd, executeDecoded_error s.advance (dispatch_error hillegal)]
  rfl

end Sys2Proof.Machine
end

section
/-! Settles O29 and O30. The state after construction (R36). -/

namespace Sys2Proof.Machine

/-- Settles O29. -/
theorem resetIsWellFormed : Obligations.ResetIsWellFormed :=
  ⟨Memory.nil_wf, rfl, rfl, Nat.zero_le _, trivial⟩

theorem word5_zero : word5 .plus 0 0 0 0 0 = Word.zero 5 := rfl

/-- Settles O30: an empty memory reads the word of construction everywhere. -/
theorem resetLeavesEverythingZeroed : Obligations.ResetLeavesEverythingZeroed :=
  ⟨rfl, rfl, rfl, rfl, rfl, rfl, rfl, rfl, rfl, rfl, rfl, rfl, rfl,
    fun _ h0 h4000 => memRead_ok (addressExists_iff.2 ⟨h0, h4000⟩)⟩

end Sys2Proof.Machine
end

section
/-! Settles O31. A step that completes brings the pc one nearer to 4000, where no step completes; so a run ends, by
induction on the distance to 4000 (R161). -/

namespace Sys2Proof.Machine

/-- From `s` exactly `n` steps complete, and the next one records a fault at `pc + n`. -/
def FaultsAfter (s : State) (n : Nat) : Prop :=
  ∃ (t : State) (k : FaultKind), Sys2Proof.core.run (n + 1) s = .next t ∧ t.status = .faulted k (s.pc + n) ∧
    ∀ m u, m ≤ n → Sys2Proof.core.run m s = .next u → u.status = .running

theorem faultsAfter_zero {s t : State} (h : step s = .next t) (hr : s.status = .running) (ht : t.status ≠ .running) :
    FaultsAfter s 0 := by
  obtain ⟨-, -, k, hk⟩ := aFaultingStepWritesNothing s t h ht
  refine ⟨t, k, run_succ h 0, hk, fun m u hm hu => ?_⟩
  obtain rfl := Nat.le_zero.1 hm
  cases hu
  exact hr

theorem faultsAfter_succ {s t : State} {n : Nat} (h : step s = .next t) (hr : s.status = .running)
    (hpc : t.pc = s.pc + 1) (ht : FaultsAfter t n) : FaultsAfter s (n + 1) := by
  obtain ⟨u, k, hrun, hk, hbefore⟩ := ht
  have hat : t.pc + n = s.pc + (n + 1) := by omega
  refine ⟨u, k, (run_succ h (n + 1)).trans hrun, hat ▸ hk, fun m v hm hv => ?_⟩
  cases m with
  | zero => cases hv; exact hr
  | succ m => exact hbefore m v (Nat.le_of_succ_le_succ hm) ((run_succ h m).symm.trans hv)

theorem exists_faultsAfter (s : State) (hr : s.status = .running) : ∃ n, n ≤ 4000 - s.pc ∧ FaultsAfter s n := by
  induction hd : 4000 - s.pc using Nat.strong_induction_on generalizing s with
  | _ d ih =>
    rcases step_effect s with ⟨k, p, hf, -⟩ | ⟨-, t, h, -⟩
    · rw [hr] at hf; cases hf
    · by_cases ht : t.status = .running
      · obtain ⟨hlt, -⟩ := step_completes h ht
        have hpc := step_completes_pc h ht
        have hend : s.pc < 4000 := hlt
        obtain ⟨n, hn, hfault⟩ := ih (4000 - t.pc) (by omega) t ht rfl
        exact ⟨n + 1, by omega, faultsAfter_succ h hr hpc hfault⟩
      · exact ⟨0, Nat.zero_le _, faultsAfter_zero h hr ht⟩

/-- Settles O31. -/
theorem everyRunEndsInAFault : Obligations.EveryRunEndsInAFault := by
  intro s hr
  obtain ⟨n, hn, t, k, hrun, hk, hbefore⟩ := exists_faultsAfter s hr
  exact ⟨n, t, k, hn, hrun, hk, hbefore⟩

end Sys2Proof.Machine
end

section
/-! Settles O55. -/

namespace Sys2Proof.Machine

/-- Settles O55: every character an empty input is asked for is missing (R125). -/
theorem anEmptyInputReadsAsAnInvalidWord : Obligations.AnEmptyInputReadsAsAnInvalidWord := by
  intro code n
  have hsign : (readWord code n []).1.sign = .invalid := rfl
  exact ⟨List.drop_nil, hsign, fun j hj => readWord_byte_missing hj (Nat.zero_le _), not_textValid_of_sign hsign⟩

end Sys2Proof.Machine
end

section
/-! Settles O6. The right shift: since position 0 of a word reads 0, byte `i` of the result is byte `i - k` of the word,
and zero fill is a special case (R113). -/

namespace Sys2Proof.Machine

variable {n : Nat}

theorem rightShift_error {k : Int} (h : k < 0) (w : Word n) :
    rightShift w k = .error (.invalidArgument (.shift k)) := if_pos h

/-- What `rightShift` answers: the sign kept, and the bytes `k` positions before. -/
theorem rightShift_spec (w : Word n) (k : Nat) :
    ∃ r, rightShift w k = .ok r ∧ r.sign = w.sign ∧ ∀ i, i ≤ n → r.byteAt i = w.byteAt (i - k) := by
  refine ⟨_, if_neg (by omega), rfl, fun i hi => ?_⟩
  rw [Int.toNat_natCast]
  by_cases h : k + 1 ≤ i
  · rw [Word.byteAt_build _ _ (by omega) hi, if_pos h]
  · rw [Word.byteAt_out w (by omega)]
    by_cases h0 : i = 0
    · exact Word.byteAt_out _ (.inl h0)
    · rw [Word.byteAt_build _ _ (by omega) hi, if_neg h]

/-- Settles O6: by the sign of the amount; what comes from before byte 1 is 0. -/
theorem rightShiftMovesBytesTowardByteN : Obligations.RightShiftMovesBytesTowardByteN := by
  intro n w k
  split
  case isTrue h => exact rightShift_error h w
  case isFalse h =>
    obtain ⟨k, rfl⟩ := Int.eq_ofNat_of_zero_le (Int.not_lt.1 h)
    obtain ⟨r, hr, hsign, hbytes⟩ := rightShift_spec w k
    refine ⟨r, hr, hsign, fun i _ hi => ?_, fun hk i => ?_⟩
    · rw [hbytes i hi, Int.toNat_natCast]
      split
      · rfl
      · exact Word.byteAt_out w (by omega)
    · by_cases hi : i ≤ n
      · rw [hbytes i hi, Word.byteAt_out w (by omega)]
      · exact Word.byteAt_out r (by omega)

end Sys2Proof.Machine
end

section
/-! Settles O11. All four extractions keep bytes in their places; they differ in the end and in the sign (R121, R122). -/

namespace Sys2Proof.Machine

variable {n : Nat}

theorem keepRight_byteAt {i : Nat} (w : Word n) (s : Sign) (k : Nat) (h1 : 1 ≤ i) (hi : i ≤ n) :
    (keepRight w s k).byteAt i = if n - k + 1 ≤ i then w.byteAt i else 0 := Word.byteAt_build _ _ h1 hi

theorem keepLeft_byteAt {i : Nat} (w : Word n) (s : Sign) (k : Nat) (h1 : 1 ≤ i) (hi : i ≤ n) :
    (keepLeft w s k).byteAt i = if i ≤ k then w.byteAt i else 0 := Word.byteAt_build _ _ h1 hi

/-- Settles O11: by whether the count is in 0..N. -/
theorem endExtractionKeepsBytesInPlace : Obligations.EndExtractionKeepsBytesInPlace := by
  intro n w k
  split
  case isTrue h => exact ⟨if_pos h, if_pos h, if_pos h, if_pos h⟩
  case isFalse h =>
    refine ⟨keepRight w .plus k.toNat, keepLeft w .plus k.toNat, if_neg h, if_neg h, rfl, rfl, if_neg h, if_neg h,
      fun i h1 hi => ?right, fun i h1 hi => ?left⟩
    case right =>
      have hpos : n - k.toNat + 1 ≤ i ↔ (n : Int) - k + 1 ≤ i := by omega
      rw [keepRight_byteAt w _ _ h1 hi, if_congr hpos rfl rfl]
    case left =>
      have hpos : i ≤ k.toNat ↔ (i : Int) ≤ k := by omega
      rw [keepLeft_byteAt w _ _ h1 hi, if_congr hpos rfl rfl]

end Sys2Proof.Machine
end

section
/-! Settles O8. The sum of digits and the model's recursion over the bytes of a span are one number (R15, R63, R117). -/

namespace Sys2Proof.Machine

variable {n : Nat}

/-- The digits of `k` bytes from `lo` on, as a sum: the last byte is added to 64 times those before it. -/
theorem sum_digits_eq_spanMag (w : Word n) (lo k : Nat) :
    ∑ i ∈ Finset.Ico lo (lo + k), (w.byteAt i).val * 64 ^ (lo + k - 1 - i) = spanMag w lo k := by
  induction k with
  | zero => simp [spanMag]
  | succ k ih =>
    have hshift : ∀ i ∈ Finset.Ico lo (lo + k),
        (w.byteAt i).val * 64 ^ (lo + (k + 1) - 1 - i) = (w.byteAt i).val * 64 ^ (lo + k - 1 - i) * 64 := by
      intro i hi
      have hlt := (Finset.mem_Ico.1 hi).2
      rw [show lo + (k + 1) - 1 - i = lo + k - 1 - i + 1 by omega, pow_succ, mul_assoc]
    rw [← Nat.add_assoc, Finset.sum_Ico_succ_top (Nat.le_add_right lo k), spanMag, ← ih, Finset.sum_mul,
      ← Finset.sum_congr rfl hshift]
    simp

theorem digits_eq_spanMag (w : Word n) {lo hi : Nat} (h : lo ≤ hi + 1) :
    Claims.digits w lo hi = spanMag w lo (hi + 1 - lo) := by
  have hend : lo + (hi + 1 - lo) = hi + 1 := by omega
  rw [← sum_digits_eq_spanMag, hend]
  rfl

/-- The signed number of a field is the value the model reads from its positions (R117). -/
theorem number_eq_spanValue (w : Word n) {f : FieldSpec} (h : f.left ≤ f.right) :
    Claims.number w f = spanValue w f.left f.right := by
  have hfirst : Claims.first f ≤ f.right + 1 := by unfold Claims.first; omega
  unfold Claims.number
  rw [digits_eq_spanMag w hfirst]
  rfl

theorem toInt_error {w : Word n} {first last : Int} (h : ¬ (0 ≤ first ∧ first ≤ last ∧ last ≤ n)) :
    toInt w first last = .error (.invalidArgument (.span first last)) := if_neg h

/-- Settles O8: by whether the span is in range; one in range is the field (first:last). -/
theorem toIntIsTheSignedBase64Number : Obligations.ToIntIsTheSignedBase64Number := by
  intro n w first last
  split
  case isTrue h =>
    have hle : first.toNat ≤ last.toNat := by omega
    exact (if_pos h).trans (congrArg _ (number_eq_spanValue w (f := ⟨first.toNat, last.toNat⟩) hle).symm)
  case isFalse h => exact toInt_error h

end Sys2Proof.Machine
end

section
/-! Settles O14. The effective address, by its index specification (R156). -/

namespace Sys2Proof.Machine

theorem effectiveAddress_none {o : Operands} (h : o.index = none) (s : State) : effectiveAddress o s = o.address := by
  rw [effectiveAddress, h]
  exact Int.add_zero _

theorem effectiveAddress_some {o : Operands} {i : IndexReg} (h : o.index = some i) (s : State) :
    effectiveAddress o s = o.address + spanValue (s.index i) 0 2 := by
  rw [effectiveAddress, h]
  rfl

/-- Settles O14: the six named registers are those `State.index` selects. -/
theorem effectiveAddressIsAddressPlusIndex : Obligations.EffectiveAddressIsAddressPlusIndex := by
  intro o s
  refine ⟨fun h => effectiveAddress_none h s, fun p hp h => ?_, fun ho => effectiveAddress_bounds ho s⟩
  have hreg : p.2 = s.index p.1 := by
    simp only [List.mem_cons, List.not_mem_nil, or_false] at hp
    obtain rfl | rfl | rfl | rfl | rfl | rfl := hp <;> rfl
  rw [effectiveAddress_some h, hreg, spanValue_zero_two]

end Sys2Proof.Machine
end

section
/-! Settles O22. A magnitude and its digits determine each other: the digits of the number of a word are its bytes, and
the number of the digits of `m` is `m` modulo 64^N (R15, R95, R252). -/

namespace Sys2Proof.Machine

variable {n : Nat}

/-- Byte `j` of a span of `k` bytes is a digit of its number. -/
theorem spanMag_digit (w : Word n) (lo : Nat) {j k : Nat} (h : j < k) :
    spanMag w lo k / 64 ^ (k - 1 - j) % 64 = (w.byteAt (lo + j)).val := by
  induction k with
  | zero => omega
  | succ k ih =>
    have hb := (w.byteAt (lo + k)).isLt
    rw [spanMag]
    by_cases hj : j = k
    · subst hj
      rw [Nat.add_sub_cancel, Nat.sub_self, pow_zero, Nat.div_one]
      omega
    · have hhead : (spanMag w lo k * 64 + (w.byteAt (lo + k)).val) / 64 = spanMag w lo k := by omega
      rw [show k + 1 - 1 - j = k - 1 - j + 1 by omega, pow_succ', ← Nat.div_div_eq_div_mul, hhead, ih (by omega)]

/-- The word of a word's own sign and magnitude is the word. -/
theorem ofMagnitude_magnitude (w : Word n) : ofMagnitude n w.sign (spanMag w 1 n) = w := by
  refine Word.ext_byteAt rfl fun i h1 hi => Fin.ext ?_
  have hdigit := spanMag_digit w 1 (show i - 1 < n by omega)
  rw [show n - 1 - (i - 1) = n - i by omega, show 1 + (i - 1) = i by omega] at hdigit
  rw [ofMagnitude_byteAt _ _ h1 hi, hdigit]

/-- Only the N low digits of a magnitude are kept. -/
theorem ofMagnitude_mod (s : Sign) (m : Nat) : ofMagnitude n s (m % 64 ^ n) = ofMagnitude n s m := by
  refine Word.ext_byteAt rfl fun i h1 hi => Fin.ext ?_
  have hsplit : 64 ^ n = 64 ^ (n - i) * 64 ^ i := by rw [← pow_add, Nat.sub_add_cancel hi]
  rw [ofMagnitude_byteAt _ _ h1 hi, ofMagnitude_byteAt _ _ h1 hi, hsplit, Nat.mod_mul_right_div_self,
    Nat.mod_mod_of_dvd _ (dvd_pow_self 64 (by omega))]

/-- The first `k` of the N low digits of `m` are the number of `m` without the others. -/
theorem spanMag_ofMagnitude_head (s : Sign) (m : Nat) {k : Nat} (h : k ≤ n) :
    spanMag (ofMagnitude n s m) 1 k = m / 64 ^ (n - k) % 64 ^ k := by
  induction k with
  | zero => simp [spanMag, Nat.mod_one]
  | succ k ih =>
    have hpow : 64 ^ (n - k) = 64 ^ (n - (k + 1)) * 64 := by rw [← pow_succ]; congr 1; omega
    rw [spanMag, ih (by omega), Nat.add_comm 1 k, ofMagnitude_byteAt _ _ (by omega) h, hpow, ← Nat.div_div_eq_div_mul,
      pow_succ', Nat.mod_mul, Nat.add_comm, Nat.mul_comm]

/-- The magnitude of the word of `m` is `m` modulo 64^N. -/
theorem spanMag_ofMagnitude (s : Sign) (m : Nat) : spanMag (ofMagnitude n s m) 1 n = m % 64 ^ n := by
  rw [spanMag_ofMagnitude_head s m le_rfl, Nat.sub_self, pow_zero, Nat.div_one]

end Sys2Proof.Machine

namespace Sys2Proof

open Machine

/-- Two signs are equal if both or neither is Minus. -/
theorem Sign.eq_of_minus_iff : ∀ {a b : Sign}, (a = .minus ↔ b = .minus) → a = b
  | .plus, .plus, _ | .minus, .minus, _ => rfl
  | .plus, .minus, h => h.2 rfl
  | .minus, .plus, h => (h.1 rfl).symm

/-- The sign bit of a 31-bit number is what is above its five digits (R95). -/
theorem unpack_sign_eq_minus {v : Nat} (h : v < 2 ^ 31) : (unpack v).sign = .minus ↔ 64 ^ 5 ≤ v := by
  have hbit : v.testBit 30 = true ↔ 64 ^ 5 ≤ v := by
    rw [Nat.testBit_eq_decide_div_mod_eq, decide_eq_true_iff]
    omega
  rw [← hbit, unpack, ofMagnitude_sign]
  split <;> simp [*]

/-- A packed word is its sign bit above the five digits of its magnitude. -/
theorem pack_eq (w : Word 5) : pack w = (if w.sign = .minus then 64 ^ 5 else 0) + spanMag w 1 5 := rfl

theorem pack_lt (w : Word 5) : pack w < 2 ^ 31 := by
  have hlt := spanMag_lt w 1 5
  rw [pack_eq]
  split <;> omega

theorem unpack_pack (w : Word 5) : unpack (pack w) = w := by
  have hlt := spanMag_lt w 1 5
  have hmod : pack w % 64 ^ 5 = spanMag w 1 5 := by
    rw [pack_eq]
    split <;> omega
  have hsign : (unpack (pack w)).sign = w.sign := by
    apply Sign.eq_of_minus_iff
    rw [unpack_sign_eq_minus (pack_lt w), pack_eq]
    by_cases hw : w.sign = .minus
    · simp [hw]
    · simpa [hw] using hlt
  calc unpack (pack w) = ofMagnitude 5 (unpack (pack w)).sign (pack w) := rfl
    _ = ofMagnitude 5 w.sign (spanMag w 1 5) := by rw [hsign, ← ofMagnitude_mod, hmod]
    _ = w := ofMagnitude_magnitude w

theorem pack_unpack {v : Nat} (h : v < 2 ^ 31) : pack (unpack v) = v := by
  have hmag : spanMag (unpack v) 1 5 = v % 64 ^ 5 := spanMag_ofMagnitude _ v
  rw [pack_eq, hmag, if_congr (unpack_sign_eq_minus h) rfl rfl]
  split <;> omega

/-- Settles O22. -/
theorem packAndUnpackAreInverse : Obligations.PackAndUnpackAreInverse :=
  ⟨fun w => ⟨pack_lt w, unpack_pack w⟩, fun _ => pack_unpack⟩

end Sys2Proof
end

section
/-! Settles O36 to O39. The content of a Load, in the spec's own spelling, and each instruction as the write of it to
its register (R180, R181, R200, R201). -/

namespace Sys2Proof.Machine

variable {o : Operands} {s : State}

/-- An instruction that reaches its operand has an address that exists. -/
theorem addressExists_of_reaches (h : Claims.Reaches o s) : addressExists (effectiveAddress o s) :=
  addressExists_iff.2 h.2

/-- The content a Load extracts holds the field's bytes at its right edge. -/
theorem extracted_bytesRight (w : Word 5) {f : FieldSpec} (hf : f.ValidFor 5) :
    Claims.BytesRight w f (extracted w f) := by
  intro i h1 h5
  have hle := FieldSpec.byteCount_le hf
  have hsum := FieldSpec.firstByte_add_byteCount hf
  have hpos : 5 - f.byteCount < i ↔ 5 < i + f.byteCount := by omega
  rw [Word.byteAt_build _ _ h1 h5, claims_count_eq hf, if_congr hpos rfl rfl]
  split
  · congr 1; omega
  · rfl

theorem extracted_sign (w : Word 5) (f : FieldSpec) : (extracted w f).sign = Claims.loadSign w f := rfl

/-- Narrowing keeps the last two bytes of the content. -/
theorem halfRight_narrow {w c : Word 5} {f : FieldSpec} (h : Claims.BytesRight w f c) :
    Claims.HalfRight w f (narrow 2 c) := by
  have hlast : 5 < 5 + Claims.count f ↔ 1 ≤ Claims.count f := by omega
  have hprev : 5 < 4 + Claims.count f ↔ 2 ≤ Claims.count f := by omega
  refine ⟨?_, ?_⟩
  · rw [narrow_byteAt c (by decide) (by decide), h 5 (by decide) (by decide), if_congr hlast rfl rfl,
      Nat.add_sub_cancel]
  · rw [narrow_byteAt c (by decide) (by decide), h 4 (by decide) (by decide), if_congr hprev rfl rfl]
    rfl

/-- The content of a Load-Negative: that of the Load, negated if the field holds the sign (R200). -/
def extractedNeg (w : Word 5) (f : FieldSpec) : Word 5 :=
  if f.containsSign then negateWord (extracted w f) else extracted w f

theorem extractedNeg_bytesRight (w : Word 5) {f : FieldSpec} (hf : f.ValidFor 5) :
    Claims.BytesRight w f (extractedNeg w f) := by
  unfold extractedNeg
  split
  · exact extracted_bytesRight w hf
  · exact extracted_bytesRight w hf

theorem extractedNeg_sign (w : Word 5) (f : FieldSpec) : (extractedNeg w f).sign = Claims.loadNegSign w f := by
  unfold extractedNeg Claims.loadNegSign
  by_cases h : f.left = 0
  · rw [if_pos h, if_pos h, negateWord_sign, extracted_sign, Claims.loadSign, if_pos h]
    rfl
  · rw [if_neg h, if_neg h, extracted_sign, Claims.loadSign, if_neg h]

theorem complete_load (h : Claims.Reaches o s) (r : LoadTarget) :
    complete s (load o r s) = .next (s.setLoaded r (extracted (Claims.operand o s) o.field)) := by
  rw [load_ok (addressExists_of_reaches h) h.1, complete_ok]
  rfl

theorem complete_loadNeg (h : Claims.Reaches o s) (r : LoadTarget) :
    complete s (loadNeg o r s) = .next (s.setLoaded r (extractedNeg (Claims.operand o s) o.field)) := by
  rw [loadNeg_ok (addressExists_of_reaches h) h.1, complete_ok]
  rfl

/-- Settles O36. -/
theorem ldaLdxLoadTheField : Obligations.LdaLdxLoadTheField := fun _ _ h =>
  ⟨_, extracted_bytesRight _ h.1, extracted_sign _ _, complete_load h .a, complete_load h .x⟩

/-- Settles O37. -/
theorem loadIndexLoadsTheNarrowedField : Obligations.LoadIndexLoadsTheNarrowedField := fun _ _ h =>
  ⟨_, halfRight_narrow (extracted_bytesRight _ h.1), extracted_sign _ _, complete_load h (.index .i1),
    complete_load h (.index .i2), complete_load h (.index .i3), complete_load h (.index .i4),
    complete_load h (.index .i5), complete_load h (.index .i6)⟩

/-- Settles O38. -/
theorem ldanLdxnNegateTheSignTheFieldHolds : Obligations.LdanLdxnNegateTheSignTheFieldHolds := fun _ _ h =>
  ⟨_, extractedNeg_bytesRight _ h.1, extractedNeg_sign _ _, complete_loadNeg h .a, complete_loadNeg h .x⟩

/-- Settles O39. -/
theorem loadIndexNegativeNegatesTheSignTheFieldHolds : Obligations.LoadIndexNegativeNegatesTheSignTheFieldHolds :=
  fun _ _ h =>
  ⟨_, halfRight_narrow (extractedNeg_bytesRight _ h.1), extractedNeg_sign _ _, complete_loadNeg h (.index .i1),
    complete_loadNeg h (.index .i2), complete_loadNeg h (.index .i3), complete_loadNeg h (.index .i4),
    complete_loadNeg h (.index .i5), complete_loadNeg h (.index .i6)⟩

end Sys2Proof.Machine
end

section
/-! Settles O40, O41, O42 and O49. A Store writes one word, in which the field comes from the register's right end; a
Load through the same field reads it back (R220, R221, R231). -/

namespace Sys2Proof.Machine

variable {o : Operands} {s : State}

/-- `src` holds in the positions of `f` what R221 takes from the register `v`. -/
def SourceOf {n : Nat} (v : Word n) (f : FieldSpec) (src : Word 5) : Prop :=
  (f.left = 0 → src.sign = v.sign) ∧
    ∀ i, f.firstByte ≤ i → i ≤ f.right → src.byteAt i = v.byteAt (n + i - f.right)

/-- The zero word is its own source: its bytes are zeros wherever they are taken from (R231). -/
theorem sourceOf_zero (f : FieldSpec) : SourceOf (Word.zero 5) f (Word.zero 5) :=
  ⟨fun _ => rfl, fun _ _ _ => by rw [Word.zero_byteAt, Word.zero_byteAt]⟩

theorem merged_sign (old src : Word 5) (f : FieldSpec) :
    (merged old src f).sign = if f.left = 0 then src.sign else old.sign := rfl

theorem merged_byteAt {i : Nat} (old src : Word 5) (f : FieldSpec) (h1 : 1 ≤ i) (h5 : i ≤ 5) :
    (merged old src f).byteAt i = if f.firstByte ≤ i ∧ i ≤ f.right then src.byteAt i else old.byteAt i :=
  Word.byteAt_build _ _ h1 h5

/-- The read-modify-write with a source of the register `v` stores `v` as R221 says. -/
theorem storeField_stored {n : Nat} {v : Word n} {src : Word 5} (h : Claims.Reaches o s)
    (hsrc : SourceOf v o.field src) :
    ∃ t, complete s (storeField o src s) = .next t ∧ Claims.Stored o v s t := by
  have ha := addressExists_of_reaches h
  obtain ⟨hsign, hbytes⟩ := hsrc
  rw [storeField_ok ha h.1]
  refine ⟨_, rfl, rfl, fun a hne => memRead_set_of_ne ha hne s.mem _, _, memRead_set_same ha s.mem _, ?sign,
    fun i h1 h5 => ?byte⟩
  case sign =>
    rw [merged_sign]
    split
    · next hl => exact hsign hl
    · rfl
  case byte =>
    rw [merged_byteAt _ _ _ h1 h5]
    split
    · next hi => exact (hbytes i hi.1 hi.2).trans (if_pos hi).symm
    · next hi => exact (if_neg hi).symm

theorem store_stored {n : Nat} {v : Word n} (h : Claims.Reaches o s) (hk : Claims.count o.field ≤ n) (hn : n ≤ 5) :
    ∃ t, complete s (store Config.hardware o v s) = .next t ∧ Claims.Stored o v s t := by
  rw [claims_count_eq h.1] at hk
  obtain ⟨src, hok, hsrc⟩ := storeAligned_spec (v := v) h.1 hk hn
  rw [store, storeContent_fits hk, hok, bind_ok]
  exact storeField_stored h hsrc

theorem store_stored_full {v : Word 5} (h : Claims.Reaches o s) :
    ∃ t, complete s (store Config.hardware o v s) = .next t ∧ Claims.Stored o v s t :=
  store_stored h (claims_count_eq h.1 ▸ FieldSpec.byteCount_le h.1) le_rfl

/-- Settles O40. -/
theorem staStxStoreIntoTheFieldOnly : Obligations.StaStxStoreIntoTheFieldOnly :=
  fun _ _ h => ⟨store_stored_full h, store_stored_full h⟩

/-- Settles O41. -/
theorem halfWordStoresStoreIntoTheFieldOnly : Obligations.HalfWordStoresStoreIntoTheFieldOnly := by
  intro o s h hcount
  have hstore (v : Word 2) : ∃ t, complete s (store Config.hardware o v s) = .next t ∧ Claims.Stored o v s t :=
    store_stored h hcount (by decide)
  exact ⟨hstore s.rJ, hstore s.rI1, hstore s.rI2, hstore s.rI3, hstore s.rI4, hstore s.rI5, hstore s.rI6⟩

/-- Settles O42. -/
theorem stzStoresZeroIntoTheFieldOnly : Obligations.StzStoresZeroIntoTheFieldOnly :=
  fun _ _ h => storeField_stored h (sourceOf_zero _)

/-! Loading back. -/

/-- The word stored through a field gives, loaded through it, the register's rightmost bytes and its sign if the field
holds the sign. -/
theorem extracted_of_stored {v w : Word 5} {f : FieldSpec} (hf : f.ValidFor 5)
    (hsign : f.left = 0 → w.sign = v.sign)
    (hbytes : ∀ i, Claims.first f ≤ i → i ≤ f.right → w.byteAt i = v.byteAt (5 + i - f.right)) :
    (extracted w f).sign = Claims.loadSign v f ∧
      ∀ i, 1 ≤ i → i ≤ 5 → (extracted w f).byteAt i = if 5 < i + Claims.count f then v.byteAt i else 0 := by
  refine ⟨?_, fun i h1 h5 => ?_⟩
  · rw [extracted_sign, Claims.loadSign, Claims.loadSign]
    split
    · next hl => exact hsign hl
    · rfl
  · rw [extracted_bytesRight w hf i h1 h5]
    split
    · next hi =>
      obtain ⟨hle, hr⟩ := hf
      have hfirst : Claims.first f + Claims.count f = f.right + 1 := by unfold Claims.first Claims.count; omega
      rw [hbytes _ (by omega) (by omega)]
      congr 1
      omega
    · rfl

theorem effectiveAddress_setA (o : Operands) (s : State) (w : Word 5) :
    effectiveAddress o (s.setA w) = effectiveAddress o s := effectiveAddress_congr o (State.setA_index s w)

theorem effectiveAddress_setX (o : Operands) (s : State) (w : Word 5) :
    effectiveAddress o (s.setX w) = effectiveAddress o s := effectiveAddress_congr o (State.setX_index s w)

/-- A Load with the operands of a Store of `v`, from any state with the memory and the effective address it left. -/
theorem complete_load_of_stored {v : Word 5} {t u : State} (r : LoadTarget) (h : Claims.Reaches o s)
    (ht : Claims.Stored o v s t) (hmem : u.mem = t.mem) (hu : effectiveAddress o u = effectiveAddress o t) :
    ∃ c, complete u (load o r u) = .next (u.setLoaded r c) ∧ c.sign = Claims.loadSign v o.field ∧
      ∀ i, 1 ≤ i → i ≤ 5 → c.byteAt i = if 5 < i + Claims.count o.field then v.byteAt i else 0 := by
  obtain ⟨hframe, -, w, hw, hsign, hbytes⟩ := ht
  obtain ⟨hf, hlow, hhigh⟩ := h
  have hea : effectiveAddress o u = effectiveAddress o s := by
    rw [hu, hframe]
    exact effectiveAddress_setMem o s t.mem
  have hop : Claims.operand o u = w := by
    rw [memRead_ok (addressExists_iff.2 ⟨hlow, hhigh⟩)] at hw
    rw [Claims.operand, hea, hmem]
    exact Except.ok.inj hw
  have hreaches : Claims.Reaches o u := ⟨hf, hea ▸ hlow, hea ▸ hhigh⟩
  have hcontent := extracted_of_stored (v := v) (w := w) hf (fun hl => by rw [hsign, if_pos hl]) fun i h1 h2 => by
    have hfirst : 1 ≤ Claims.first o.field := Nat.le_max_right ..
    have hright := hf.2
    rw [hbytes i (by omega) (by omega), if_pos ⟨h1, h2⟩]
  exact ⟨extracted w o.field, hop ▸ complete_load hreaches r, hcontent⟩

/-- Settles O49: the Store completes, and the Load finds its word whatever the register holds by then. -/
theorem loadAfterStoreReturnsTheRegister : Obligations.LoadAfterStoreReturnsTheRegister := by
  intro o s v h
  refine ⟨?viaA, ?viaX⟩
  case viaA =>
    obtain ⟨t, hstore, ht⟩ := store_stored_full (v := s.rA) h
    obtain ⟨c, hload, hcontent⟩ := complete_load_of_stored .a h ht (State.setA_mem t v) (effectiveAddress_setA o t v)
    exact ⟨t, c, hstore, hload, hcontent⟩
  case viaX =>
    obtain ⟨t, hstore, ht⟩ := store_stored_full (v := s.rX) h
    obtain ⟨c, hload, hcontent⟩ := complete_load_of_stored .x h ht (State.setX_mem t v) (effectiveAddress_setX o t v)
    exact ⟨t, c, hstore, hload, hcontent⟩

end Sys2Proof.Machine
end

section
/-! Settles O43, O44 and O45. The result word of ADD and SUB: its sign is that of the true result, its magnitude the true
one modulo 64^5 (R250 to R254; D3, D4). -/

namespace Sys2Proof.Machine

variable {o : Operands} {s : State}

theorem storedMagnitude_of_fits {p : Params} {t : Int} (h : t.natAbs ≤ 1073741823) : storedMagnitude p t = t.natAbs :=
  if_neg (Nat.not_lt.2 h)

theorem storedMagnitude_of_exceeds {t : Int} (h : 1073741823 < t.natAbs) :
    storedMagnitude Config.hardware t = t.natAbs % 64 ^ 5 := if_pos h

theorem overflowAfter_of_fits {t : Int} (h : t.natAbs ≤ 1073741823) (ov : OverflowBit) : overflowAfter t ov = ov :=
  if_neg (Nat.not_lt.2 h)

theorem overflowAfter_of_exceeds {t : Int} (h : 1073741823 < t.natAbs) (ov : OverflowBit) : overflowAfter t ov = .on :=
  if_pos h

/-- The sign of a true result that is not 0 (R252). -/
theorem resultSign_of_ne_zero {p : Params} {t : Int} (h : t ≠ 0) (old : Sign) :
    resultSign p t old = if 0 < t then .plus else .minus := by
  unfold resultSign
  split
  · rfl
  · exact if_pos (by omega)

/-- The sign of a true result of 0 is Plus on this hardware (D4). -/
theorem resultSign_zero (old : Sign) : resultSign Config.hardware 0 old = .plus := rfl

/-- The number of the digits of a result word is its stored magnitude, which five bytes hold. -/
theorem digits_fromInt (p : Params) (t : Int) {m : Nat} (hm : m < 64 ^ 5) (old : Sign) :
    Claims.digits (fromInt p t m old) 1 5 = m := by
  rw [digits_eq_spanMag _ (by decide), fromInt, spanMag_ofMagnitude, Nat.mod_eq_of_lt hm]

theorem ofMagnitude_zero (n : Nat) : ofMagnitude n .plus 0 = Word.zero n :=
  Word.ext_byteAt rfl fun i h1 hi => Fin.ext (by rw [ofMagnitude_byteAt _ _ h1 hi, Word.zero_byteAt]; simp)

/-- The true result of R250, over the spec's numbers of the field. -/
def trueResult (op : ArithOp) (o : Operands) (s : State) : Int :=
  op.apply (Claims.number s.rA o.field) (Claims.number (Claims.operand o s) o.field)

theorem complete_arith (h : Claims.Reaches o s) (op : ArithOp) :
    complete s (arith Config.hardware op o s) = .next (s.setResult Config.hardware (trueResult op o s)) := by
  have hle : o.field.left ≤ o.field.right := h.1.1
  rw [arith_ok (addressExists_of_reaches h) h.1, complete_ok, trueResult, number_eq_spanValue _ hle,
    number_eq_spanValue _ hle]
  rfl

/-- The state a result that fits leaves: rA alone is changed. -/
theorem setResult_of_fits {t : Int} (h : t.natAbs ≤ 1073741823) (s : State) :
    s.setResult Config.hardware t = { s with rA := fromInt Config.hardware t t.natAbs s.rA.sign } := by
  rw [State.setResult, storedMagnitude_of_fits h, overflowAfter_of_fits h]

/-- The state a result that does not fit leaves: rA holds the wrapped one, and the bit is On. -/
theorem setResult_of_exceeds {t : Int} (h : 1073741823 < t.natAbs) (s : State) :
    s.setResult Config.hardware t =
      { s with rA := fromInt Config.hardware t (t.natAbs % 64 ^ 5) s.rA.sign, ov := .on } := by
  rw [State.setResult, storedMagnitude_of_exceeds h, overflowAfter_of_exceeds h]

/-- The two rows of the claims, as one operation: ADD is the sum and SUB the difference. -/
theorem exists_arithOp {p : Instr × Int}
    (hp : p ∈ [(Instr.add o, Claims.number s.rA o.field + Claims.number (Claims.operand o s) o.field),
      (Instr.sub o, Claims.number s.rA o.field - Claims.number (Claims.operand o s) o.field)]) :
    ∃ op, p.2 = trueResult op o s ∧ exec p.1 s = complete s (arith Config.hardware op o s) := by
  simp only [List.mem_cons, List.not_mem_nil, or_false] at hp
  rcases hp with rfl | rfl
  · exact ⟨.add, rfl, rfl⟩
  · exact ⟨.sub, rfl, rfl⟩

/-- Settles O43. -/
theorem addSubStoreTheExactResult : Obligations.AddSubStoreTheExactResult := by
  intro o s h p hp h0 hfits
  obtain ⟨op, ht, hx⟩ := exists_arithOp hp
  rw [hx, complete_arith h, ← ht, setResult_of_fits hfits]
  exact ⟨_, digits_fromInt _ _ (by omega) _, resultSign_of_ne_zero h0 _, rfl⟩

/-! The bound of a true result. -/

theorem number_natAbs_lt {w : Word 5} {f : FieldSpec} (hf : f.ValidFor 5) :
    (Claims.number w f).natAbs < 64 ^ Claims.count f := by
  rw [number_eq_spanValue w hf.1, spanValue_natAbs]
  exact spanMag_lt w _ _

/-- A true result is less than twice what the field's bytes can hold. -/
theorem trueResult_natAbs (op : ArithOp) (s : State) (hf : o.field.ValidFor 5) :
    (trueResult op o s).natAbs ≤ 2 * (64 ^ Claims.count o.field - 1) := by
  have ha := number_natAbs_lt (w := s.rA) hf
  have hb := number_natAbs_lt (w := Claims.operand o s) hf
  unfold trueResult
  cases op
  case add =>
    have hadd := Int.natAbs_add_le (Claims.number s.rA o.field) (Claims.number (Claims.operand o s) o.field)
    show (Claims.number s.rA o.field + Claims.number (Claims.operand o s) o.field).natAbs ≤ _
    omega
  case sub =>
    have hsub := Int.natAbs_sub_le (Claims.number s.rA o.field) (Claims.number (Claims.operand o s) o.field)
    show (Claims.number s.rA o.field - Claims.number (Claims.operand o s) o.field).natAbs ≤ _
    omega

/-- So one subtraction of 64^5 wraps it. -/
theorem trueResult_mod (op : ArithOp) (hf : o.field.ValidFor 5) (hexc : 1073741823 < (trueResult op o s).natAbs) :
    (trueResult op o s).natAbs % 64 ^ 5 = (trueResult op o s).natAbs - 1073741824 := by
  have hbound := trueResult_natAbs op s hf
  have hcount : 64 ^ Claims.count o.field ≤ 64 ^ 5 :=
    Nat.pow_le_pow_right (by decide) (claims_count_eq hf ▸ FieldSpec.byteCount_le hf)
  omega

/-- Settles O44. -/
theorem addSubOverflowWrapsAndSetsTheBit : Obligations.AddSubOverflowWrapsAndSetsTheBit := by
  intro o s h p hp hexc
  obtain ⟨op, ht, hx⟩ := exists_arithOp hp
  have h0 : p.2 ≠ 0 := by omega
  have hmod : p.2.natAbs % 64 ^ 5 = p.2.natAbs - 1073741824 := by
    rw [ht] at hexc ⊢
    exact trueResult_mod op h.1 hexc
  rw [hx, complete_arith h, ← ht, setResult_of_exceeds hexc]
  exact ⟨_, (digits_fromInt _ _ (Nat.mod_lt _ (by decide)) _).trans hmod, resultSign_of_ne_zero h0 _, rfl⟩

/-- A true result of 0 puts positive zero into rA. -/
theorem complete_arith_zero (h : Claims.Reaches o s) {op : ArithOp} (h0 : trueResult op o s = 0) :
    complete s (arith Config.hardware op o s) = .next { s with rA := word5 .plus 0 0 0 0 0 } := by
  rw [complete_arith h, h0, setResult_of_fits (by decide), fromInt, resultSign_zero, Int.natAbs_zero, ofMagnitude_zero,
    word5_zero]

/-- Settles O45. -/
theorem addSubZeroResultIsPositiveZero : Obligations.AddSubZeroResultIsPositiveZero :=
  fun _ _ h => ⟨fun h0 => complete_arith_zero (op := .add) h h0, fun h0 => complete_arith_zero (op := .sub) h h0⟩

end Sys2Proof.Machine
end

section
/-! Settles O46. A field of at most four bytes keeps a true result within five (R253). -/

namespace Sys2Proof.Machine

variable {o : Operands} {s : State}

/-- A span that `toInt` answers for is a valid field. -/
theorem validFor_of_toInt_eq_ok {w : Word 5} {f : FieldSpec} {x : Int} (h : toInt w f.left f.right = .ok x) :
    f.ValidFor 5 := by
  unfold toInt at h
  split at h
  · next hspan => exact ⟨by omega, by omega⟩
  · cases h

/-- If ADD or SUB answers a state, its field is valid and the state holds the true result. -/
theorem arith_eq_ok_trueResult {op : ArithOp} {t : State} (h : arith Config.hardware op o s = .ok t) :
    o.field.ValidFor 5 ∧ t = s.setResult Config.hardware (trueResult op o s) := by
  obtain ⟨ha, -⟩ := arith_eq_ok h
  obtain ⟨w, -, hparts⟩ := bind_eq_ok h
  obtain ⟨a, hleft, -⟩ := bind_eq_ok hparts
  have hf := validFor_of_toInt_eq_ok hleft
  have hreaches : Claims.Reaches o s := ⟨hf, addressExists_iff.1 ha⟩
  have hcomplete := complete_arith hreaches op
  rw [h, complete_ok] at hcomplete
  cases hcomplete
  exact ⟨hf, rfl⟩

/-- A field that names five bytes is (0:5) or (1:5). -/
theorem field_of_five_bytes {f : FieldSpec} (hf : f.ValidFor 5) (h : 5 ≤ Claims.count f) :
    f = ⟨0, 5⟩ ∨ f = ⟨1, 5⟩ := by
  obtain ⟨left, right⟩ := f
  obtain ⟨hle, h5⟩ := hf
  simp only [Claims.count] at h hle h5
  simp only [FieldSpec.mk.injEq]
  omega

/-- An overflow needs a field of five bytes. -/
theorem five_le_count_of_exceeds {op : ArithOp} (hf : o.field.ValidFor 5)
    (h : 1073741823 < (trueResult op o s).natAbs) : 5 ≤ Claims.count o.field := by
  by_contra hlt
  have hbound := trueResult_natAbs op s hf
  have hcount : 64 ^ Claims.count o.field ≤ 64 ^ 4 := Nat.pow_le_pow_right (by decide) (by omega)
  omega

theorem complete_arith_overflow {op : ArithOp} {t : State} (h : complete s (arith Config.hardware op o s) = .next t)
    (hs : s.ov = .off) (ht : t.ov = .on) : o.field = ⟨0, 5⟩ ∨ o.field = ⟨1, 5⟩ := by
  rcases complete_ok_or_fault h with h | ⟨k, rfl⟩
  · obtain ⟨hf, rfl⟩ := arith_eq_ok_trueResult h
    refine field_of_five_bytes hf (five_le_count_of_exceeds (op := op) (s := s) hf (Nat.lt_of_not_le fun hfits => ?_))
    rw [State.setResult_ov, overflowAfter_of_fits hfits, hs] at ht
    cases ht
  · rw [raiseFault_ov, hs] at ht
    cases ht

/-- Settles O46. -/
theorem onlyFiveByteFieldsOverflow : Obligations.OnlyFiveByteFieldsOverflow := by
  intro o i s t hi h hs ht
  simp only [List.mem_cons, List.not_mem_nil, or_false] at hi
  rcases hi with rfl | rfl
  · exact complete_arith_overflow (op := .add) h hs ht
  · exact complete_arith_overflow (op := .sub) h hs ht

end Sys2Proof.Machine
end

section
/-! Settles O50 and O51. The accessors a host uses between steps (R37, R38). -/

namespace Sys2Proof

/-- The number of an index register (R24). -/
def IndexReg.number : IndexReg → Int
  | .i1 => 1
  | .i2 => 2
  | .i3 => 3
  | .i4 => 4
  | .i5 => 5
  | .i6 => 6

theorem IndexReg.number_bounds (i : IndexReg) : 1 ≤ i.number ∧ i.number ≤ 6 := by cases i <;> decide

theorem IndexReg.exists_number {n : Int} (h : 1 ≤ n ∧ n ≤ 6) : ∃ i : IndexReg, n = i.number := by
  obtain rfl | rfl | rfl | rfl | rfl | rfl : n = 1 ∨ n = 2 ∨ n = 3 ∨ n = 4 ∨ n = 5 ∨ n = 6 := by omega
  exacts [⟨.i1, rfl⟩, ⟨.i2, rfl⟩, ⟨.i3, rfl⟩, ⟨.i4, rfl⟩, ⟨.i5, rfl⟩, ⟨.i6, rfl⟩]

end Sys2Proof

namespace Sys2Proof.Machine

/-! Index registers. -/

/-- A number names at most one index register, and that is the one of that number. -/
theorem indexRegOf_eq_some_iff {n : Int} {i : IndexReg} : indexRegOf n = some i ↔ n = i.number := by
  constructor
  · intro h
    unfold indexRegOf at h
    split_ifs at h <;> cases h <;> assumption
  · rintro rfl
    cases i <;> rfl

theorem indexRegOf_number (i : IndexReg) : indexRegOf i.number = some i := indexRegOf_eq_some_iff.2 rfl

theorem indexRegOf_eq_none {n : Int} (h : ¬ (1 ≤ n ∧ n ≤ 6)) : indexRegOf n = none :=
  Option.eq_none_iff_forall_ne_some.2 fun i hi => h (indexRegOf_eq_some_iff.1 hi ▸ i.number_bounds)

theorem setIndexRegister_number (i : IndexReg) (hw : Word 2) (s : State) :
    setIndexRegister i.number hw s = .ok (s.setIndex i hw) := by
  rw [setIndexRegister, indexRegOf_number]

/-- Every number reads after the write of register `i` as before, but for the number of `i`. -/
theorem indexRegister_setIndex (k : Int) (i : IndexReg) (hw : Word 2) (s : State) :
    indexRegister k (s.setIndex i hw) = if k = i.number then .ok hw else indexRegister k s := by
  unfold indexRegister
  cases hk : indexRegOf k with
  | none =>
    have hne : k ≠ i.number := fun h => by rw [h, indexRegOf_number] at hk; cases hk
    rw [if_neg hne]
  | some j =>
    have hsame : j = i ↔ k = i.number := by rw [← indexRegOf_eq_some_iff, hk, Option.some_inj]
    dsimp only
    rw [State.setIndex_index, if_congr hsame rfl rfl, apply_ite Except.ok]

/-- A write of an index register changes the six of them at most. -/
theorem setIndex_frame (s : State) (i : IndexReg) (hw : Word 2) : s.setIndex i hw =
    { s with rI1 := (s.setIndex i hw).rI1, rI2 := (s.setIndex i hw).rI2, rI3 := (s.setIndex i hw).rI3,
             rI4 := (s.setIndex i hw).rI4, rI5 := (s.setIndex i hw).rI5, rI6 := (s.setIndex i hw).rI6 } := by
  cases i <;> rfl

/-- Settles O50: by whether the number names a register. -/
theorem indexRegisterAccessorsAreBounded : Obligations.IndexRegisterAccessorsAreBounded := by
  intro n hw s
  split
  case isTrue h =>
    obtain ⟨i, rfl⟩ := IndexReg.exists_number h
    exact ⟨_, setIndexRegister_number i hw s, fun k => indexRegister_setIndex k i hw s, setIndex_frame s i hw⟩
  case isFalse h =>
    have hnone := indexRegOf_eq_none h
    exact ⟨by rw [indexRegister, hnone], by rw [setIndexRegister, hnone]⟩

/-! Memory and the accumulator. -/

theorem setMemoryCell_ok {a : Int} (ha : addressExists a) (w : Word 5) (s : State) :
    setMemoryCell a w s = .ok (s.setMem (s.mem.set a.toNat w)) := by
  rw [setMemoryCell, memWrite_ok ha, bind_ok]
  rfl

theorem setMemoryCell_error {a : Int} (ha : ¬ addressExists a) (w : Word 5) (s : State) :
    setMemoryCell a w s = .error (.indexError a) := by
  rw [setMemoryCell, memWrite_error ha, bind_error]

/-- Settles O51: the cell accessors are one read and one write of memory. -/
theorem memoryAndAccumulatorAccessors : Obligations.MemoryAndAccumulatorAccessors := by
  intro a w s
  refine ⟨?_, rfl, rfl⟩
  split
  case isTrue h =>
    have ha := addressExists_iff.2 h
    refine ⟨_, setMemoryCell_ok ha w s, fun b => ?_, rfl⟩
    split
    case isTrue hb => rw [hb]; exact memRead_set_same ha s.mem w
    case isFalse hb => exact memRead_set_of_ne ha hb s.mem w
  case isFalse h =>
    have ha := mt addressExists_iff.1 h
    exact ⟨memRead_error ha, setMemoryCell_error ha w s⟩

end Sys2Proof.Machine
end

section
/-! Settles O52. The loader writes one word after the other; what it leaves, and where it stops, by induction on the
words from any address on (R312, R313). -/

namespace Sys2Proof.Machine

theorem addressExists_natCast {a : Nat} : addressExists a ↔ a < 4000 :=
  addressExists_iff.trans ⟨fun h => by omega, fun h => by omega⟩

theorem loadWordsFrom_cons_ok {a : Nat} (ha : a < 4000) (w : Word 5) (ws : List (TextWord 5)) (s : State) :
    loadWordsFrom a (textOf w :: ws) s = loadWordsFrom (a + 1) ws (s.setMem (s.mem.set a w)) := by
  simp only [loadWordsFrom, liveWord_textOf, setMemoryCell_ok (addressExists_natCast.2 ha), Int.toNat_natCast]

theorem loadWordsFrom_cons_error {a : Nat} (ha : 4000 ≤ a) (w : Word 5) (ws : List (TextWord 5)) (s : State) :
    loadWordsFrom a (textOf w :: ws) s = (s, some (.raised (.indexError a))) := by
  simp only [loadWordsFrom, liveWord_textOf, setMemoryCell_error (mt addressExists_natCast.1 (Nat.not_lt.2 ha))]

/-- Words that fit are placed from `a` on, in order, and every other address keeps its word. -/
theorem loadWordsFrom_fits (ws : List (Word 5)) : ∀ (a : Nat) (s : State), a + ws.length ≤ 4000 →
    ∃ m, loadWordsFrom a (ws.map textOf) s = (s.setMem m, none) ∧
      ∀ k, m.get k = if a ≤ k then ws.getD (k - a) (s.mem.get k) else s.mem.get k := by
  induction ws with
  | nil => exact fun a s _ => ⟨s.mem, rfl, fun k => by simp⟩
  | cons w ws ih =>
    intro a s hlen
    rw [List.length_cons] at hlen
    obtain ⟨m, hm, hget⟩ := ih (a + 1) (s.setMem (s.mem.set a w)) (by omega)
    refine ⟨m, by rw [List.map_cons, loadWordsFrom_cons_ok (by omega), hm]; rfl, fun k => ?_⟩
    rw [hget, State.setMem_mem, Memory.get_set]
    rcases Nat.lt_trichotomy k a with hk | rfl | hk
    · rw [if_neg (by omega), if_neg (by omega), if_neg (by omega)]
    · rw [if_neg (by omega), if_pos rfl, if_pos le_rfl, Nat.sub_self, List.getD_cons_zero]
    · rw [if_pos (by omega), if_neg (by omega), if_pos (by omega), show k - a = k - (a + 1) + 1 by omega,
        List.getD_cons_succ]

/-- Words that do not fit fail at the first address that does not exist. -/
theorem loadWordsFrom_tooLong (ws : List (Word 5)) : ∀ (a : Nat) (s : State), a ≤ 4000 → 4000 < a + ws.length →
    (loadWordsFrom a (ws.map textOf) s).2 = some (.raised (.indexError 4000)) := by
  induction ws with
  | nil => intro a s ha hlen; rw [List.length_nil] at hlen; omega
  | cons w ws ih =>
    intro a s ha hlen
    rw [List.length_cons] at hlen
    rw [List.map_cons]
    rcases Nat.lt_or_eq_of_le ha with hlt | rfl
    · rw [loadWordsFrom_cons_ok hlt]
      exact ih (a + 1) _ hlt (by omega)
    · rw [loadWordsFrom_cons_error le_rfl]
      rfl

theorem boot_map_textOf {ws : List (Word 5)} (h : ws ≠ []) :
    boot (ws.map textOf) = loadWordsFrom 0 (ws.map textOf) State.reset := if_neg (mt List.map_eq_nil_iff.1 h)

/-- Settles O52: the loader from address 0 on the reset state, by whether the program fits. -/
theorem theLoaderPlacesWordsFromAddressZero : Obligations.TheLoaderPlacesWordsFromAddressZero := by
  refine ⟨rfl, fun ws hne => ?_⟩
  rw [boot_map_textOf hne]
  split
  case isTrue hlen =>
    obtain ⟨m, hm, hget⟩ := loadWordsFrom_fits ws 0 State.reset (by omega)
    refine ⟨_, hm, rfl, fun k hk => ?_⟩
    have hword : m.get k = ws.getD k (Word.zero 5) := (hget k).trans (if_pos (Nat.zero_le k))
    rw [word5_zero, ← hword]
    exact memRead_ok (addressExists_natCast.2 hk)
  case isFalse hlen => exact loadWordsFrom_tooLong ws 0 State.reset (Nat.zero_le _) (by omega)

end Sys2Proof.Machine
end
